-- ==== Sys2Proof/Word.lean ====
section
/-! DEFINITION. The data types of ONB233-CORE: command words, field elements, register names (R8, R9, R14, R17). -/
namespace Sys2Proof

/-- A command word, and the STATUS word: 32 bits, bit 0 least significant (R32, R39). -/
abbrev Word := BitVec 32

/-- A field element: 233 coefficients, bit `i` is the coefficient at index `i` (R8, R14). -/
abbrev Elem := BitVec 233

/-- An element register name, E0..E7 (R17, R40). -/
abbrev Reg := Fin 8

/-- The element with all coefficients 0 (R9). -/
abbrev ZERO : Elem := 0#233

/-- The element with all coefficients 1, the field's multiplicative identity (R9, R12). -/
abbrev ONE : Elem := BitVec.allOnes 233

/-- `e(i)`: the element whose only nonzero coefficient is at index `i` (R10). -/
abbrev basisElem (i : Nat) : Elem := BitVec.twoPow 233 i

end Sys2Proof
end

