-- ==== Sys2Proof/Machine/Arith.lean ====
section
/-! DEFINITION. The additive and Frobenius units: adder, squaring unit, rotator, trace unit (41_additive.md). -/
namespace Sys2Proof.Machine

/-- `XOR_{i in 0..n-1} f(i)`, 0 over the empty set (R9). -/
def xorBelow (f : Nat → Bool) : Nat → Bool
  | 0 => false
  | n + 1 => xorBelow f n ^^ f n

/-- R53: `c[i] = a[i] XOR b[i]`. -/
def fieldAdd (a b : Elem) : Elem := a ^^^ b

/-- R55: `c[i] = a[(i+1) mod 233]`; as an unsigned integer "a cyclic right shift by one place within 233 bits". -/
def fieldSqr (a : Elem) : Elem := a.rotateRight 1

/-- R57: `c[(i + s) mod 233] = a[i]` with `s = k mod 233`; as an unsigned integer "a cyclic left shift by s places within
233 bits". -/
def fieldRot (a : Elem) (k : Nat) : Elem := a.rotateLeft (k % 233)

/-- R59: the parity of the 233 coefficients. -/
def fieldTrace (a : Elem) : Bool := xorBelow a.getLsbD 233

/-- The field's primitives, over any carrier: POW and INV are written over them once, so that the same control flow
computes the element (`elemOps`) and the operation count of R96 (`costOps`). -/
structure FieldOps (α : Type) where
  one : α
  sqr : α → α
  mul : α → α → α

end Sys2Proof.Machine
end

