-- ==== Sys2Proof/Config.lean ====
section
/-! DEFINITION. What is fixed for the machine: the design constants of R6 and R7, and the parameters that the spec
leaves open (R97 LAT; R70 and D30 the engines' pace). -/
namespace Sys2Proof.Config

/-- The extension degree m (R6). -/
abbrev m : Nat := 233

/-- The auxiliary prime p = 2m + 1, used only to construct the matrix (R6). -/
abbrev p : Nat := 467

/-- Number of element registers (R7, R17). -/
abbrev nreg : Nat := 8

/-- The open parameters of one clock-level machine. R97: "A cycle-level model takes LAT as an argument, and a proof must
hold for every value". Both functions see the command word and the two latched operands, since LAT "may depend on the opcode
and on the operand values"; the operand of LD is the `din` value it samples. `pace` is how many engine rounds one busy edge
performs when so many edges are left; the spec leaves the engines' structure open (R70, D30; log 10). -/
structure Timing where
  lat : Word → Elem → Elem → Nat
  pace : Word → Elem → Elem → Nat → Nat
  lat_pos : ∀ w a b, 1 ≤ lat w a b

end Sys2Proof.Config
end

