-- ==== Sys2Proof/Syntax.lean ====
section
/-! DEFINITION. The commands of the opcode map (R42), one constructor a row. -/
namespace Sys2Proof

/-- A decoded command. Operand order is the assembler's: destination, sources, immediate (R46). -/
inductive Instr where
  /-- R49: no operation. -/
  | nop
  /-- R50: construct an element from the data port. -/
  | ld (rd : Reg)
  /-- R51: serialize an element to the data port. -/
  | st (rs1 : Reg)
  /-- R52: clear the sticky error bits. -/
  | clr
  /-- R53: field addition. -/
  | add (rd rs1 rs2 : Reg)
  /-- R55: field squaring, a one-place rotation. -/
  | sqr (rd rs1 : Reg)
  /-- R57: cyclic rotation by an immediate amount. -/
  | rot (rd rs1 : Reg) (k : BitVec 8)
  /-- R59: the field trace. -/
  | trc (rs1 : Reg)
  /-- R67: field multiplication. -/
  | mul (rd rs1 rs2 : Reg)
  /-- R72: field exponentiation, exponent `E[rs2][len-1:0]`. -/
  | pow (rd rs1 rs2 : Reg) (len : BitVec 8)
  /-- R75: multiplicative inverse. -/
  | inv (rd rs1 : Reg)
  deriving DecidableEq, Repr

/-- The row of the opcode table an instruction belongs to, by its mnemonic (R42). -/
def Instr.mnemonic : Instr → String
  | .nop => "NOP"
  | .ld _ => "LD"
  | .st _ => "ST"
  | .clr => "CLR"
  | .add _ _ _ => "ADD"
  | .sqr _ _ => "SQR"
  | .rot _ _ _ => "ROT"
  | .trc _ => "TRC"
  | .mul _ _ _ => "MUL"
  | .pow _ _ _ _ => "POW"
  | .inv _ _ => "INV"

end Sys2Proof
end

