-- ==== Sys2Proof/Machine/State.lean ====
section
/-! DEFINITION. The state of ONB233-CORE as plain data (R28 the architectural tuple, R27 the hidden state in flight), the
ways a step can stop, and the state after reset (R90). -/
namespace Sys2Proof.Machine

/-- Working values of the multiplication engine (R27, R68): the rotated operands, the round bits collected so far, and
the number of the next round. -/
structure MulWork where
  x : Elem
  y : Elem
  o : Elem
  round : Nat
  deriving DecidableEq, Repr

/-- Working values of the exponentiation engine (R27, R72): the running result and the exponent position, counted as the
number of exponent bits not yet used (the next one is coefficient `pos - 1`). -/
structure PowWork where
  r : Elem
  pos : Nat
  deriving DecidableEq, Repr

/-- Working values of the inversion engine (R27, R76): `beta`, `k`, and the next chain position `idx`. -/
structure InvWork where
  beta : Elem
  k : Nat
  idx : Nat
  deriving DecidableEq, Repr

/-- The engine a command in flight occupies; `idle` for a command without a multi-step engine. -/
inductive Engine where
  | idle
  | mul (w : MulWork)
  | pow (w : PowWork)
  | inv (w : InvWork)
  deriving DecidableEq, Repr

/-- The hidden state of a command in flight (R27): the accepted word, the operand values latched at acceptance (for LD, the
sampled `din` value is its operand `a`), the clock edges left until it completes (R97), and the engine's working values. An
operand that the command does not read is ZERO (log 9). -/
structure InFlight where
  word : Word
  a : Elem
  b : Elem
  left : Nat
  engine : Engine
  deriving DecidableEq, Repr

/-- What the host does next (R13, R24: the host is the sequencer): issue a command word with a value driven on `din`
(R29), or hold `rst_n` at 0 for one edge (R90). -/
inductive HostAction where
  | command (cmd : Word) (din : Elem)
  | reset
  deriving DecidableEq, Repr

/-- The machine. The fields `e` to `dout` are the spec's architectural state (R28), `inFlight` and `din` its hidden state
(R27), and BUSY is `inFlight.isSome` (log 5). `host` is the model's own: the host actions not taken yet (log 3). -/
structure State where
  /-- E0..E7 (R17). -/
  e : Vector Elem 8
  /-- Edef[0..7]: the register was written since the last reset (R18). -/
  edef : Vector Bool 8
  /-- The trace flag T (R19). -/
  t : Bool
  /-- STATUS.ILL, sticky (R20, R80). -/
  ill : Bool
  /-- STATUS.DOM, sticky (R20, R81). -/
  dom : Bool
  /-- The output register DOUT (R22). -/
  dout : Elem
  /-- The command in flight, if BUSY (R21, R27). -/
  inFlight : Option InFlight
  /-- The value of the `din` port sampled when the last LD was accepted (R23, R27, R29; log 4). -/
  din : Elem
  /-- The model's own field: what the host does next, first action first (log 3). -/
  host : List HostAction
  deriving DecidableEq, Repr

/-- Why the machine stops. -/
inductive Fault where
  /-- Raised by a command (ST, ADD, SQR, ROT, TRC, MUL, POW, INV) that reads an element register not written since the
  last reset. The spec orders it: R18 "A model must treat a read of a register not written since the last reset as a
  model-level fault, `UNINIT(r)`, and never as ZERO", R48, R84, U5. Safe: the chip goes on with some value, and the model
  says nothing of that run (its form here: log 2). -/
  | uninit (r : Reg)
  deriving DecidableEq, Repr

/-- Why an instruction has no meaning. -/
inductive Refusal where
  /-- Raised by an arm of `exec` whose instruction is not modelled yet; no arm raises it in this model. Safe: the step
  stops. -/
  | notModelled (mnemonic : String)
  deriving DecidableEq, Repr

/-- The two errors a command can raise (R79): their STATUS bits are ILL and DOM. -/
inductive ErrorKind where
  /-- R80. -/
  | illegal
  /-- R81. -/
  | domain
  deriving DecidableEq, Repr

/-- What one command writes at its completion, all on one edge (R21, R30). -/
inductive Effect where
  /-- Nothing (R49). -/
  | nothing
  /-- `E[rd] <- v; Edef[rd] <- true`. -/
  | element (rd : Reg) (v : Elem)
  /-- `T <- b` (R59). -/
  | trace (b : Bool)
  /-- `DOUT <- v` (R51). -/
  | output (v : Elem)
  /-- `ILL <- 0; DOM <- 0` (R52). -/
  | clear
  /-- `raise x` (R79). -/
  | error (x : ErrorKind)
  deriving DecidableEq, Repr

/-- The outcome of a step. -/
abbrev Result := Host.Outcome State Fault Refusal

/-- R28, R90: Edef all false, T = ILL = DOM = 0, DOUT = ZERO, BUSY = 0. The spec leaves the element values unspecified:
DESIGN CHOICE ZERO (log 1), which no command reads while Edef is false. `din` is ZERO (DESIGN CHOICE, log 4) and the host
has nothing to do yet (log 3). -/
def State.reset : State where
  e := Vector.replicate 8 ZERO
  edef := Vector.replicate 8 false
  t := false
  ill := false
  dom := false
  dout := ZERO
  inFlight := none
  din := ZERO
  host := []

end Sys2Proof.Machine
end

