-- ==== Sys2Proof/Machine/Ops.lean ====
section
/-! DEFINITION. The named operations over the state: the register file (R17, R18), raising an error and clearing it
(R79, R52), committing a command's effect (R30), and the reset edge (R90). -/
namespace Sys2Proof.Machine

/-- The stored value of an element register. A command reads it through `withSource`, which checks Edef first. -/
def State.reg (s : State) (r : Reg) : Elem := s.e.get r

/-- Edef[r] (R18). -/
def State.isDefined (s : State) (r : Reg) : Bool := s.edef.get r

/-- BUSY: a command is in flight (R21, R27). -/
def State.busy (s : State) : Bool := s.inFlight.isSome

/-- `E[rd] <- v; Edef[rd] <- true`: R18 "any write sets it to true". No register is hardwired (R17). -/
def State.writeReg (s : State) (rd : Reg) (v : Elem) : State :=
  { s with e := s.e.set rd v, edef := s.edef.set rd true }

/-- `raise X`: R79 "Its only effect is to set the STATUS bit of X to 1". This is the block's whole exception entry: it has
no handler, no vector and no saved state (R86). -/
def State.raise (s : State) (x : ErrorKind) : State :=
  match x with
  | .illegal => { s with ill := true }
  | .domain => { s with dom := true }

/-- R52, R86: CLR is the only way, short of reset, back to an error-free STATUS. -/
def State.clearErrors (s : State) : State :=
  { s with ill := false, dom := false }

/-- The writes of one command, together (R30). -/
def State.commit (s : State) (x : Effect) : State :=
  match x with
  | .nothing => s
  | .element rd v => s.writeReg rd v
  | .trace b => { s with t := b }
  | .output v => { s with dout := v }
  | .clear => s.clearErrors
  | .error k => s.raise k

/-- One rising edge with `rst_n` = 0 (R90): every piece of architectural state takes its reset value and a command in
flight is abandoned. The host's own list is not the block's state. -/
def State.resetEdge (s : State) : State :=
  { State.reset with host := s.host }

end Sys2Proof.Machine
end

