-- ==== Sys2Proof/Machine/Operands.lean ====
section
/-! DEFINITION. Reading source registers (R18, R30, R48, R84). -/
namespace Sys2Proof.Machine

/-- Read a source register: its value if Edef[r]; R48 "if Edef[r] == false: model fault UNINIT(r)", which R18 orders of
every model and U5 puts as `fault`, not as a free draw. -/
def State.withSource (s : State) (r : Reg) (k : Elem → Result) : Result :=
  if s.isDefined r then k (s.reg r) else .fault (.uninit r)

/-- Read two source registers; R84: "rs1 is checked before rs2". Both are read before anything is written (R30). -/
def State.withSources (s : State) (rs1 rs2 : Reg) (k : Elem → Elem → Result) : Result :=
  s.withSource rs1 fun a => s.withSource rs2 fun b => k a b

/-- The source registers a command reads, in the order they are checked (R48, R84). POW reads both "even when len = 0"
(R72). -/
def sources : Instr → List Reg
  | .nop => []
  | .ld _ => []
  | .st rs1 => [rs1]
  | .clr => []
  | .add _ rs1 rs2 => [rs1, rs2]
  | .sqr _ rs1 => [rs1]
  | .rot _ rs1 _ => [rs1]
  | .trc rs1 => [rs1]
  | .mul _ rs1 rs2 => [rs1, rs2]
  | .pow _ rs1 rs2 _ => [rs1, rs2]
  | .inv _ rs1 => [rs1]

/-- The element register a command writes when it completes without a raise (R17), if it writes one. -/
def destination : Instr → Option Reg
  | .nop => none
  | .ld rd => some rd
  | .st _ => none
  | .clr => none
  | .add rd _ _ => some rd
  | .sqr rd _ => some rd
  | .rot rd _ _ => some rd
  | .trc _ => none
  | .mul rd _ _ => some rd
  | .pow rd _ _ _ => some rd
  | .inv rd _ => some rd

/-- Which commands sample `din` at their acceptance: R23 "It is sampled only when an LD command is accepted" (R29). -/
def samplesDin : Instr → Bool
  | .nop => false
  | .ld _ => true
  | .st _ => false
  | .clr => false
  | .add _ _ _ => false
  | .sqr _ _ => false
  | .rot _ _ _ => false
  | .trc _ => false
  | .mul _ _ _ => false
  | .pow _ _ _ _ => false
  | .inv _ _ => false

/-- The accepting edge's sample of the `din` port, for LD alone (R23, R29, R50). -/
def State.sampleDin (s : State) (i : Instr) (port : Elem) : State :=
  if samplesDin i then { s with din := port } else s

/-- What the accepting edge latches (R27, R30): the sampled `din` value for LD, else the values of the sources, ZERO for one
the command does not read (log 9). -/
def State.withLatched (s : State) (i : Instr) (k : Elem → Elem → Result) : Result :=
  if samplesDin i then k s.din ZERO else
  match sources i with
  | [] => k ZERO ZERO
  | [rs1] => s.withSource rs1 fun a => k a ZERO
  | rs1 :: rs2 :: _ => s.withSources rs1 rs2 k

/-- The operand values that the accepting edge latches: for LD the sampled `din` value, else what the command's sources hold,
ZERO for one it does not read (R27, R30, log 9). -/
def latchedOperands (i : Instr) (s : State) : Elem × Elem :=
  if samplesDin i then (s.din, ZERO) else
  match sources i with
  | [] => (ZERO, ZERO)
  | [rs1] => (s.reg rs1, ZERO)
  | rs1 :: rs2 :: _ => (s.reg rs1, s.reg rs2)

end Sys2Proof.Machine
end

