-- ==== Sys2Proof/Machine/Additive.lean ====
section
/-! DEFINITION. The additive and Frobenius commands ADD, SQR, ROT, TRC (41_additive.md). -/
namespace Sys2Proof.Machine

/-- R53. -/
def addEffect (rd : Reg) (a b : Elem) : Effect := .element rd (fieldAdd a b)

/-- R55. -/
def sqrEffect (rd : Reg) (a : Elem) : Effect := .element rd (fieldSqr a)

/-- R57, `k` an unsigned integer 0..255 (R41). -/
def rotEffect (rd : Reg) (k : BitVec 8) (a : Elem) : Effect := .element rd (fieldRot a k.toNat)

/-- R59. -/
def trcEffect (a : Elem) : Effect := .trace (fieldTrace a)

/-- ADD rd, rs1, rs2 (R53). -/
def execAdd (rd rs1 rs2 : Reg) (s : State) : Result :=
  s.withSources rs1 rs2 fun a b => .next (s.commit (addEffect rd a b))

/-- SQR rd, rs1 (R55). -/
def execSqr (rd rs1 : Reg) (s : State) : Result :=
  s.withSource rs1 fun a => .next (s.commit (sqrEffect rd a))

/-- ROT rd, rs1, k (R57). -/
def execRot (rd rs1 : Reg) (k : BitVec 8) (s : State) : Result :=
  s.withSource rs1 fun a => .next (s.commit (rotEffect rd k a))

/-- TRC rs1 (R59). -/
def execTrc (rs1 : Reg) (s : State) : Result :=
  s.withSource rs1 fun a => .next (s.commit (trcEffect a))

end Sys2Proof.Machine
end

