-- ==== Sys2Proof/Machine/Matrix.lean ====
section
/-! DEFINITION. The multiplication matrix Λ: its construction rule (R61 to R63), the design-time check (R64), and the
wired constant (R65). -/
namespace Sys2Proof.Machine

/-- R61: `2^e mod 467`. -/
def modpow2 (e : Nat) : Nat := 2 ^ e % Config.p

/-- The four signed combinations of R62, over the mathematical integers. -/
def combinations (u v : Nat) : List Int :=
  [(u : Int) + v, (u : Int) - v, -(u : Int) + v, -(u : Int) - v]

/-- R62: entry (i, j) is 1 iff some combination is 1 modulo 467 (`Int.emod` is the non-negative residue). -/
def entry (i j : Nat) : Bool :=
  (combinations (modpow2 i) (modpow2 j)).any fun s => s % (Config.p : Int) == 1

/-- Every column of row `i` whose entry is 1, in increasing order. -/
def allMarked (i : Nat) : List Nat := (List.range Config.m).filter fun j => entry i j

/-- R63: the marked columns of row `i`, the scan stopping once two are collected. -/
def markedColumns (i : Nat) : List Nat := (allMarked i).take 2

/-- R63: the matrix as the set of pairs (row, marked column), row by row. -/
def matrixByRule : List (Nat × Nat) :=
  (List.range Config.m).flatMap fun i => (markedColumns i).map fun j => (i, j)

/-- R64: "The design must not be built unless every row has one or two marked columns". -/
def designCheck : Bool :=
  (List.range Config.m).all fun i => (allMarked i).length == 1 || (allMarked i).length == 2

/-- R65, rows 0 to 29. -/
def matrixRows0 : List (Nat × Nat) :=
  [
   (0, 1), (1, 0), (1, 217), (2, 41), (2, 217), (3, 148), (3, 201), (4, 25), (4, 51), (5, 125),
   (5, 209), (6, 71), (6, 116), (7, 61), (7, 94), (8, 76), (8, 174), (9, 106), (9, 143), (10, 101),
   (10, 178), (11, 172), (11, 206), (12, 75), (12, 187), (13, 95), (13, 118), (14, 44), (14, 155), (15, 56),
   (15, 163), (16, 17), (16, 18), (17, 16), (17, 57), (18, 16), (18, 164), (19, 57), (19, 157), (20, 46),
   (20, 170), (21, 205), (21, 229), (22, 102), (22, 145), (23, 139), (23, 152), (24, 29), (24, 50), (25, 4),
   (25, 149), (26, 209), (26, 213), (27, 38), (27, 129), (28, 49), (28, 199), (29, 24), (29, 140)]

/-- R65, rows 30 to 59. -/
def matrixRows1 : List (Nat × Nat) :=
  [
   (30, 149), (30, 219), (31, 82), (31, 185), (32, 35), (32, 74), (33, 173), (33, 180), (34, 62), (34, 73),
   (35, 32), (35, 83), (36, 114), (36, 180), (37, 128), (37, 137), (38, 27), (38, 214), (39, 199), (39, 231),
   (40, 147), (40, 216), (41, 2), (41, 218), (42, 141), (42, 201), (43, 132), (43, 154), (44, 14), (44, 96),
   (45, 163), (45, 169), (46, 20), (46, 58), (47, 121), (47, 229), (48, 79), (48, 198), (49, 28), (49, 130),
   (50, 24), (50, 153), (51, 4), (51, 202), (52, 125), (52, 189), (53, 86), (53, 89), (54, 167), (54, 226),
   (55, 65), (55, 162), (56, 15), (56, 156), (57, 17), (57, 19), (58, 46), (58, 164), (59, 67), (59, 121)]

/-- R65, rows 60 to 89. -/
def matrixRows2 : List (Nat × Nat) :=
  [
   (60, 93), (60, 135), (61, 7), (61, 72), (62, 34), (62, 174), (63, 83), (63, 221), (64, 109), (64, 161),
   (65, 55), (65, 227), (66, 120), (66, 156), (67, 59), (67, 165), (68, 135), (68, 225), (69, 87), (69, 127),
   (70, 85), (70, 115), (71, 6), (71, 126), (72, 61), (72, 136), (73, 34), (73, 181), (74, 32), (74, 186),
   (75, 12), (75, 173), (76, 8), (76, 95), (77, 133), (77, 143), (78, 92), (78, 197), (79, 48), (79, 122),
   (80, 130), (80, 211), (81, 104), (81, 184), (82, 31), (82, 220), (83, 35), (83, 63), (84, 109), (84, 114),
   (85, 70), (85, 88), (86, 53), (86, 126), (87, 69), (87, 226), (88, 85), (88, 110), (89, 53), (89, 190)]

/-- R65, rows 90 to 119. -/
def matrixRows3 : List (Nat × Nat) :=
  [
   (90, 99), (90, 167), (91, 196), (91, 223), (92, 78), (92, 134), (93, 60), (93, 122), (94, 7), (94, 117),
   (95, 13), (95, 76), (96, 44), (96, 133), (97, 169), (97, 224), (98, 158), (98, 166), (99, 90), (99, 191),
   (100, 177), (100, 196), (101, 10), (101, 144), (102, 22), (102, 206), (103, 152), (103, 183), (104, 81), (104, 131),
   (105, 142), (105, 220), (106, 9), (106, 175), (107, 178), (107, 193), (108, 113), (108, 160), (109, 64), (109, 84),
   (110, 88), (110, 227), (111, 190), (111, 204), (112, 159), (112, 171), (113, 108), (113, 179), (114, 36), (114, 84),
   (115, 70), (115, 128), (116, 6), (116, 210), (117, 94), (117, 123), (118, 13), (118, 188), (119, 155), (119, 203)]

/-- R65, rows 120 to 149. -/
def matrixRows4 : List (Nat × Nat) :=
  [
   (120, 66), (120, 228), (121, 47), (121, 59), (122, 79), (122, 93), (123, 117), (123, 211), (124, 188), (124, 208),
   (125, 5), (125, 52), (126, 71), (126, 86), (127, 69), (127, 136), (128, 37), (128, 115), (129, 27), (129, 210),
   (130, 49), (130, 80), (131, 104), (131, 153), (132, 43), (132, 142), (133, 77), (133, 96), (134, 92), (134, 224),
   (135, 60), (135, 68), (136, 72), (136, 127), (137, 37), (137, 181), (138, 151), (138, 214), (139, 23), (139, 146),
   (140, 29), (140, 200), (141, 42), (141, 219), (142, 105), (142, 132), (143, 9), (143, 77), (144, 101), (144, 197),
   (145, 22), (145, 230), (146, 139), (146, 215), (147, 40), (147, 200), (148, 3), (148, 218), (149, 25), (149, 30)]

/-- R65, rows 150 to 179. -/
def matrixRows5 : List (Nat × Nat) :=
  [
   (150, 185), (150, 213), (151, 138), (151, 182), (152, 23), (152, 103), (153, 50), (153, 131), (154, 43), (154, 202),
   (155, 14), (155, 119), (156, 56), (156, 66), (157, 19), (157, 165), (158, 98), (158, 170), (159, 112), (159, 191),
   (160, 108), (160, 194), (161, 64), (161, 222), (162, 55), (162, 168), (163, 15), (163, 45), (164, 18), (164, 58),
   (165, 67), (165, 157), (166, 98), (166, 225), (167, 54), (167, 90), (168, 162), (168, 223), (169, 45), (169, 97),
   (170, 20), (170, 158), (171, 112), (171, 205), (172, 11), (172, 179), (173, 33), (173, 75), (174, 8), (174, 62),
   (175, 106), (175, 221), (176, 193), (176, 195), (177, 100), (177, 192), (178, 10), (178, 107), (179, 113), (179, 172)]

/-- R65, rows 180 to 209. -/
def matrixRows6 : List (Nat × Nat) :=
  [
   (180, 33), (180, 36), (181, 73), (181, 137), (182, 151), (182, 186), (183, 103), (183, 207), (184, 81), (184, 212),
   (185, 31), (185, 150), (186, 74), (186, 182), (187, 12), (187, 207), (188, 118), (188, 124), (189, 52), (189, 203),
   (190, 89), (190, 111), (191, 99), (191, 159), (192, 177), (192, 194), (193, 107), (193, 176), (194, 160), (194, 192),
   (195, 176), (195, 222), (196, 91), (196, 100), (197, 78), (197, 144), (198, 48), (198, 230), (199, 28), (199, 39),
   (200, 140), (200, 147), (201, 3), (201, 42), (202, 51), (202, 154), (203, 119), (203, 189), (204, 111), (204, 228),
   (205, 21), (205, 171), (206, 11), (206, 102), (207, 183), (207, 187), (208, 124), (208, 212), (209, 5), (209, 26)]

/-- R65, rows 210 to 232. -/
def matrixRows7 : List (Nat × Nat) :=
  [
   (210, 116), (210, 129), (211, 80), (211, 123), (212, 184), (212, 208), (213, 26), (213, 150), (214, 38), (214, 138),
   (215, 146), (215, 231), (216, 40), (216, 232), (217, 1), (217, 2), (218, 41), (218, 148), (219, 30), (219, 141),
   (220, 82), (220, 105), (221, 63), (221, 175), (222, 161), (222, 195), (223, 91), (223, 168), (224, 97), (224, 134),
   (225, 68), (225, 166), (226, 54), (226, 87), (227, 65), (227, 110), (228, 120), (228, 204), (229, 21), (229, 47),
   (230, 145), (230, 198), (231, 39), (231, 215), (232, 216), (232, 232)]

/-- R65: Λ for m = 233, p = 467, the constant wired into the multiplication engine (R64). -/
def matrix : List (Nat × Nat) :=
  matrixRows0 ++ matrixRows1 ++ matrixRows2 ++ matrixRows3 ++ matrixRows4 ++ matrixRows5 ++ matrixRows6 ++ matrixRows7

end Sys2Proof.Machine
end

