-- ==== Sys2Proof/Machine/Multiply.lean ====
section
/-! DEFINITION. The multiplication engine (43_multiply.md): the closed form (R70), the round algorithm (R68) with its
output assembly (R69), and the command MUL (R67). -/
namespace Sys2Proof.Machine

/-- R70's function. With `A_k = a[232 - k]`, coefficient `232 - k` of the product is `XOR_{(i,j) in Λ} A_{i+k} AND B_{j+k}`,
and `A_{i+k}` is coefficient `232 - k` of ROT(a, i): so all 233 coefficients together are rotations of the operands.
DEDUCED from R70; "any engine whose result equals this function on every pair of inputs conforms" (log 11). -/
def fieldMul (a b : Elem) : Elem :=
  matrix.foldl (fun c ij => c ^^^ (fieldRot a ij.1 &&& fieldRot b ij.2)) ZERO

/-- The primitives of POW and INV on elements: "MUL is 43_multiply.md rule R67 and SQR is 41_additive.md rule R55" (R72). -/
def elemOps : FieldOps Elem where
  one := ONE
  sqr := fieldSqr
  mul := fieldMul

/-- R68, step 1: `t` starts at ZERO, and each pair (i, j) of Λ adds `x[232 - j]` into `t[i]`. -/
def matrixProduct (x : Elem) : Elem :=
  matrix.foldl (fun t ij => if x.getLsbD (232 - ij.2) then t ^^^ BitVec.twoPow 233 ij.1 else t) ZERO

/-- R68, step 3: the XOR of the pairwise ANDs. -/
def innerProduct (t y : Elem) : Bool := xorBelow (fun i => t.getLsbD i && y.getLsbD i) 233

/-- The bit of one round, from the working values at its start (R68 steps 1 to 3): `yT[i] = y[232 - i]`. -/
def roundBit (x y : Elem) : Bool := innerProduct (matrixProduct x) y.reverse

/-- `o[r] <- bit`. -/
def setCoeff (o : Elem) (r : Nat) (bit : Bool) : Elem :=
  (o &&& ~~~(BitVec.twoPow 233 r)) ||| (if bit then BitVec.twoPow 233 r else ZERO)

/-- The working values when the engine starts (R68). -/
def mulStart (a b : Elem) : MulWork where
  x := a
  y := b
  o := ZERO
  round := 0

/-- One round of R68, for rounds 0 to 232; afterwards the engine has nothing left to do. -/
def mulRound (w : MulWork) : MulWork :=
  if w.round < 233 then
    { x := fieldSqr w.x
      y := fieldSqr w.y
      o := setCoeff w.o w.round (roundBit w.x w.y)
      round := w.round + 1 }
  else w

/-- R69: `c[i] = o[(i + 1) mod 233]`. -/
def assembleProduct (o : Elem) : Elem := o.rotateRight 1

/-- R67: the product by the 233 rounds of R68 and the output assembly of R69. -/
def fieldMulByRounds (a b : Elem) : Elem :=
  assembleProduct (mulRound^[233] (mulStart a b)).o

/-- R67: `E[rd] <- c; Edef[rd] <- true` for a product `c`. -/
def mulEffect (rd : Reg) (c : Elem) : Effect := .element rd c

/-- MUL rd, rs1, rs2 (R67, R70). -/
def execMul (rd rs1 rs2 : Reg) (s : State) : Result :=
  s.withSources rs1 rs2 fun a b => .next (s.commit (mulEffect rd (fieldMul a b)))

end Sys2Proof.Machine
end

