-- ==== Sys2Proof/Machine/Inverse.lean ====
section
/-! DEFINITION. The Itoh–Tsujii inversion engine and the command INV (45_inverse.md). -/
namespace Sys2Proof.Machine

/-- The chain constant "11101000", `CHAIN[0]` first (R76). -/
def chain : List Bool := [true, true, true, false, true, false, false, false]

section
variable {α : Type} (F : FieldOps α)

/-- R76, one chain position, on (`beta`, `k`): square `k` times, multiply by the old `beta`, double `k`; on a 1 bit square
once more, multiply by the original `a`, increment `k`. -/
def chainStep (a : α) (bit : Bool) (w : α × Nat) : α × Nat :=
  let doubled := F.mul (F.sqr^[w.2] w.1) w.1
  if bit then (F.mul (F.sqr doubled) a, 2 * w.2 + 1) else (doubled, 2 * w.2)

/-- R76, the loop over chain positions 1 to 7 from `beta = a`, `k = 1`. -/
def chainLoop (a : α) : α × Nat :=
  (chain.drop 1).foldl (fun w bit => chainStep F a bit w) (a, 1)

/-- R76: the loop, then the final squaring. -/
def itohTsujiiWith (a : α) : α := F.sqr (chainLoop F a).1

end

/-- R76 on elements: `a^(2^233 - 2)`. -/
def fieldInv (a : Elem) : Elem := itohTsujiiWith elemOps a

/-- The working values when the engine starts (R76). -/
def invStart (a : Elem) : InvWork where
  beta := a
  k := 1
  idx := 1

/-- One chain position of R76, for positions 1 to 7; afterwards only the final squaring is left. -/
def invRound (a : Elem) (w : InvWork) : InvWork :=
  if w.idx < 8 then
    let next := chainStep elemOps a (chain.getD w.idx false) (w.beta, w.k)
    { beta := next.1, k := next.2, idx := w.idx + 1 }
  else w

/-- R75: "if a == ZERO: raise DOMAIN(cmd)", rd not written; else `E[rd] <- c; Edef[rd] <- true` for the inverse `c`. -/
def invEffect (rd : Reg) (a c : Elem) : Effect :=
  if a = ZERO then .error .domain else .element rd c

/-- INV rd, rs1 (R75, R76). -/
def execInv (rd rs1 : Reg) (s : State) : Result :=
  s.withSource rs1 fun a => .next (s.commit (invEffect rd a (fieldInv a)))

end Sys2Proof.Machine
end

