-- ==== Sys2Proof/Machine/Power.lean ====
section
/-! DEFINITION. The exponentiation engine and the command POW (44_power.md). -/
namespace Sys2Proof.Machine

section
variable {α : Type} (F : FieldOps α)

/-- R72, the first exponent bit: `r = ONE; if x[len-1] == 1: r = MUL(r, a)`; with the number of bits still to use. An
empty exponent leaves ONE. -/
def powFirst (a : α) (x : Elem) : Nat → α × Nat
  | 0 => (F.one, 0)
  | n + 1 => (if x.getLsbD n then F.mul F.one a else F.one, n)

/-- R72, each subsequent bit: square, then multiply by `a` if the bit is set. -/
def powBit (a : α) (bit : Bool) (r : α) : α :=
  if bit then F.mul (F.sqr r) a else F.sqr r

/-- R72, the loop `for idx = n-1 down to 0`. -/
def powLoop (a : α) (x : Elem) : Nat → α → α
  | 0, r => r
  | n + 1, r => powLoop a x n (powBit F a (x.getLsbD n) r)

/-- R72, left-to-right square and multiply with the exponent `x[len-1:0]`. -/
def powWith (a : α) (x : Elem) (len : Nat) : α :=
  powLoop F a x (powFirst F a x len).2 (powFirst F a x len).1

end

/-- R72 on elements. -/
def fieldPow (a x : Elem) (len : Nat) : Elem := powWith elemOps a x len

/-- The working values when the engine starts, its first bit used (R72). -/
def powStart (a x : Elem) (len : Nat) : PowWork where
  r := (powFirst elemOps a x len).1
  pos := (powFirst elemOps a x len).2

/-- One subsequent exponent bit (R72). -/
def powRound (a x : Elem) (w : PowWork) : PowWork :=
  match w.pos with
  | 0 => w
  | n + 1 => { r := powBit elemOps a (x.getLsbD n) w.r, pos := n }

/-- R72: `E[rd] <- r; Edef[rd] <- true` for a power `r`. -/
def powEffect (rd : Reg) (r : Elem) : Effect := .element rd r

/-- POW rd, rs1, rs2, len (R72). A `len` above 233 is no legal command: no word decodes to it (R44), and the meaning raises
ILLEGAL before it reads a register, as R84 orders (log 12). -/
def execPow (rd rs1 rs2 : Reg) (len : BitVec 8) (s : State) : Result :=
  if 233 < len.toNat then .next (s.commit (.error .illegal))
  else s.withSources rs1 rs2 fun a x => .next (s.commit (powEffect rd (fieldPow a x len.toNat)))

end Sys2Proof.Machine
end

