-- ==== Sys2Proof/Machine/Transfer.lean ====
section
/-! DEFINITION. The transfer and control commands NOP, LD, ST, CLR (40_transfer.md). -/
namespace Sys2Proof.Machine

/-- R49. -/
def nopEffect : Effect := .nothing

/-- R50, `v` the `din` value sampled at the accepting edge. -/
def ldEffect (rd : Reg) (v : Elem) : Effect := .element rd v

/-- R51. -/
def stEffect (a : Elem) : Effect := .output a

/-- R52. -/
def clrEffect : Effect := .clear

/-- NOP (R49). -/
def execNop (s : State) : Result := .next (s.commit nopEffect)

/-- LD rd (R50). -/
def execLd (rd : Reg) (s : State) : Result := .next (s.commit (ldEffect rd s.din))

/-- ST rs1 (R51). -/
def execSt (rs1 : Reg) (s : State) : Result :=
  s.withSource rs1 fun a => .next (s.commit (stEffect a))

/-- CLR (R52). -/
def execClr (s : State) : Result := .next (s.commit clrEffect)

end Sys2Proof.Machine
end

