-- ==== Sys2Proof/Machine/Dispatch.lean ====
section
/-! DEFINITION. One arm per command: the meaning it calls (R48). -/
namespace Sys2Proof.Machine

def exec (i : Instr) (s : State) : Host.Outcome State Fault Refusal :=
  match i with
  | .nop => Sys2Proof.Machine.execNop s
  | .ld rd => Sys2Proof.Machine.execLd rd s
  | .st rs1 => Sys2Proof.Machine.execSt rs1 s
  | .clr => Sys2Proof.Machine.execClr s
  | .add rd rs1 rs2 => Sys2Proof.Machine.execAdd rd rs1 rs2 s
  | .sqr rd rs1 => Sys2Proof.Machine.execSqr rd rs1 s
  | .rot rd rs1 k => Sys2Proof.Machine.execRot rd rs1 k s
  | .trc rs1 => Sys2Proof.Machine.execTrc rs1 s
  | .mul rd rs1 rs2 => Sys2Proof.Machine.execMul rd rs1 rs2 s
  | .pow rd rs1 rs2 len => Sys2Proof.Machine.execPow rd rs1 rs2 len s
  | .inv rd rs1 => Sys2Proof.Machine.execInv rd rs1 s

end Sys2Proof.Machine
end

