-- ==== Sys2Proof/WellFormed.lean ====
section
/-! DEFINITION. Which instructions have an encoding (R40, R41): every register name and every rotation amount is legal,
and an exponent length is at most 233. -/
namespace Sys2Proof

/-- R41: "POW uses it as the exponent length `len`. Legal values are 0..233". Every other operand is legal at every
value of its field (R40, R41). -/
def Instr.wellFormed : Instr → Bool
  | .nop => true
  | .ld _ => true
  | .st _ => true
  | .clr => true
  | .add _ _ _ => true
  | .sqr _ _ => true
  | .rot _ _ _ => true
  | .trc _ => true
  | .mul _ _ _ => true
  | .pow _ _ _ len => decide (len.toNat ≤ 233)
  | .inv _ _ => true

end Sys2Proof
end

