-- ==== Sys2Proof/Decode.lean ====
section
/-! DEFINITION. The decoder, total on every 32-bit word (R45), and the encoder (R39, R42). -/
namespace Sys2Proof

/-- Why a word is illegal (R44). The machine treats all three alike; the names are for claims. -/
inductive Illegal where
  /-- The opcode is 0xB..0xF. -/
  | reservedOpcode
  /-- A field that the opcode does not use is nonzero. -/
  | reservedField
  /-- POW with `imm8` above 233. -/
  | exponentTooLong
  deriving DecidableEq, Repr

/-- The fields of format C (R39, R40, R41), less the opcode and the reserved bits. -/
structure Fields where
  rd : Reg
  rs1 : Reg
  rs2 : Reg
  imm8 : BitVec 8
  deriving DecidableEq, Repr

/-- `w[31:28]` (R39). -/
def opField (w : Word) : BitVec 4 := w.extractLsb' 28 4

/-- A three-bit register field whose lowest bit is `lo` (R40). -/
def regField (w : Word) (lo : Nat) : Reg := ⟨(w.extractLsb' lo 3).toNat, (w.extractLsb' lo 3).isLt⟩

/-- The operand fields of a word (R39). -/
def fieldsOf (w : Word) : Fields where
  rd := regField w 25
  rs1 := regField w 22
  rs2 := regField w 19
  imm8 := w.extractLsb' 11 8

/-- R43's match and mask of one opcode. -/
structure OpRow where
  matchBits : Word
  mask : Word
  deriving DecidableEq, Repr

/-- R42, R43: the legal opcodes with their match and mask; 0xB..0xF are reserved. -/
def opRow (op : BitVec 4) : Option OpRow :=
  match op.toNat with
  | 0x0 => some ⟨0x00000000#32, 0xFFFFFFFF#32⟩
  | 0x1 => some ⟨0x10000000#32, 0xF1FFFFFF#32⟩
  | 0x2 => some ⟨0x20000000#32, 0xFE3FFFFF#32⟩
  | 0x3 => some ⟨0x30000000#32, 0xFFFFFFFF#32⟩
  | 0x4 => some ⟨0x40000000#32, 0xF007FFFF#32⟩
  | 0x5 => some ⟨0x50000000#32, 0xF03FFFFF#32⟩
  | 0x6 => some ⟨0x60000000#32, 0xF03807FF#32⟩
  | 0x7 => some ⟨0x70000000#32, 0xFE3FFFFF#32⟩
  | 0x8 => some ⟨0x80000000#32, 0xF007FFFF#32⟩
  | 0x9 => some ⟨0x90000000#32, 0xF00007FF#32⟩
  | 0xA => some ⟨0xA0000000#32, 0xF03FFFFF#32⟩
  | _ => none

/-- The command an opcode stands for, with the operand fields it uses (R42). -/
def instrOf (op : BitVec 4) (f : Fields) : Option Instr :=
  match op.toNat with
  | 0x0 => some .nop
  | 0x1 => some (.ld f.rd)
  | 0x2 => some (.st f.rs1)
  | 0x3 => some .clr
  | 0x4 => some (.add f.rd f.rs1 f.rs2)
  | 0x5 => some (.sqr f.rd f.rs1)
  | 0x6 => some (.rot f.rd f.rs1 f.imm8)
  | 0x7 => some (.trc f.rs1)
  | 0x8 => some (.mul f.rd f.rs1 f.rs2)
  | 0x9 => some (.pow f.rd f.rs1 f.rs2 f.imm8)
  | 0xA => some (.inv f.rd f.rs1)
  | _ => none

/-- R45, with its three tests in its order: reserved opcode, reserved field, exponent length. -/
def decode (w : Word) : Except Illegal Instr :=
  match opRow (opField w), instrOf (opField w) (fieldsOf w) with
  | some row, some i =>
    if w &&& row.mask ≠ row.matchBits then .error .reservedField
    else if opField w = 0x9#4 ∧ 233 < (fieldsOf w).imm8.toNat then .error .exponentTooLong
    else .ok i
  | _, _ => .error .reservedOpcode

/-- A register name as its three-bit field (R40). -/
def regBits (r : Reg) : BitVec 3 := BitVec.ofNat 3 r.val

/-- Format C with its reserved bits 0 (R39). -/
def formatC (op : BitVec 4) (rd rs1 rs2 : BitVec 3) (imm8 : BitVec 8) : Word :=
  op ++ rd ++ rs1 ++ rs2 ++ imm8 ++ 0#11

/-- The word of an instruction: its opcode (R42), its operands in their fields, every other field 0 (R43). -/
def encode : Instr → Word
  | .nop => formatC 0x0#4 0#3 0#3 0#3 0#8
  | .ld rd => formatC 0x1#4 (regBits rd) 0#3 0#3 0#8
  | .st rs1 => formatC 0x2#4 0#3 (regBits rs1) 0#3 0#8
  | .clr => formatC 0x3#4 0#3 0#3 0#3 0#8
  | .add rd rs1 rs2 => formatC 0x4#4 (regBits rd) (regBits rs1) (regBits rs2) 0#8
  | .sqr rd rs1 => formatC 0x5#4 (regBits rd) (regBits rs1) 0#3 0#8
  | .rot rd rs1 k => formatC 0x6#4 (regBits rd) (regBits rs1) 0#3 k
  | .trc rs1 => formatC 0x7#4 0#3 (regBits rs1) 0#3 0#8
  | .mul rd rs1 rs2 => formatC 0x8#4 (regBits rd) (regBits rs1) (regBits rs2) 0#8
  | .pow rd rs1 rs2 len => formatC 0x9#4 (regBits rd) (regBits rs1) (regBits rs2) len
  | .inv rd rs1 => formatC 0xA#4 (regBits rd) (regBits rs1) 0#3 0#8

/-- What the decoder reads from a word whose bits are given as a number: the bits from `nbits` up are 0, and a command is
32 bits long (R39), so a number that needs more bits is no command. -/
def decodeTableWord (nbits w : Nat) : Option Instr :=
  let bits := w % 2 ^ nbits
  if bits < 2 ^ 32 then
    match decode (BitVec.ofNat 32 bits) with
    | .ok i => some i
    | .error _ => none
  else none

end Sys2Proof
end

