-- ==== Sys2Proof/Machine/Engine.lean ====
section
/-! DEFINITION. A command in flight (R21, R27): the engine it starts, one round of an engine, and what the command writes
when it completes. -/
namespace Sys2Proof.Machine

/-- The engine a command starts, from its latched operands. INV starts none on ZERO: "The hardware never produces it,
because rule R75 raises DOMAIN first" (R78). -/
def Engine.start (i : Instr) (a b : Elem) : Engine :=
  match i with
  | .nop => .idle
  | .ld _ => .idle
  | .st _ => .idle
  | .clr => .idle
  | .add _ _ _ => .idle
  | .sqr _ _ => .idle
  | .rot _ _ _ => .idle
  | .trc _ => .idle
  | .mul _ _ _ => .mul (mulStart a b)
  | .pow _ _ _ len => .pow (powStart a b len.toNat)
  | .inv _ _ => if a = ZERO then .idle else .inv (invStart a)

/-- One round of an engine: a MUL round (R68), an exponent bit (R72), a chain position (R76). -/
def Engine.round (a b : Elem) : Engine → Engine
  | .idle => .idle
  | .mul w => .mul (mulRound w)
  | .pow w => .pow (powRound a b w)
  | .inv w => .inv (invRound a w)

/-- What an engine answers once its remaining rounds are done (R69, R72, R76). -/
def Engine.result (a b : Elem) : Engine → Elem
  | .idle => ZERO
  | .mul w => assembleProduct (mulRound^[233 - w.round] w).o
  | .pow w => powLoop elemOps a b w.pos w.r
  | .inv w => fieldSqr ((invRound a)^[8 - w.idx] w).beta

/-- What a legal command in flight writes at its completion, from its latched operands and its engine. -/
def effectInFlight (i : Instr) (f : InFlight) : Effect :=
  match i with
  | .nop => nopEffect
  | .ld rd => ldEffect rd f.a
  | .st _ => stEffect f.a
  | .clr => clrEffect
  | .add rd _ _ => addEffect rd f.a f.b
  | .sqr rd _ => sqrEffect rd f.a
  | .rot rd _ k => rotEffect rd k f.a
  | .trc _ => trcEffect f.a
  | .mul rd _ _ => mulEffect rd (f.engine.result f.a f.b)
  | .pow rd _ _ _ => powEffect rd (f.engine.result f.a f.b)
  | .inv rd _ => invEffect rd f.a (f.engine.result f.a f.b)

/-- What the command in flight writes at its completion; an illegal word raises ILLEGAL (R44, R79 "The command still
completes"). -/
def InFlight.effect (f : InFlight) : Effect :=
  match decode f.word with
  | .ok i => effectInFlight i f
  | .error _ => .error .illegal

/-- The completing edge (R21): the results are written and BUSY goes back to 0, together. -/
def State.complete (s : State) (f : InFlight) : State :=
  { s.commit f.effect with inFlight := none }

end Sys2Proof.Machine
end

