-- ==== Sys2Proof/Machine/Fetch.lean ====
section
/-! DEFINITION. What the next transaction is (R13, R24, R29): the block fetches nothing, so the host's list says it. -/
namespace Sys2Proof.Machine

/-- The next transaction, with the state that it starts from. -/
inductive Fetched where
  /-- The host offers nothing: the block waits (R91). -/
  | nothing
  /-- One edge with `rst_n` = 0 (R90). -/
  | resetEdge (s : State)
  /-- A command is in flight: it completes before the next is accepted (R36). -/
  | completes (f : InFlight)
  /-- An illegal word is accepted (R44). -/
  | illegal (s : State)
  /-- A command is accepted, `din` being sampled if it is LD (R29). -/
  | instruction (i : Instr) (s : State)
  deriving DecidableEq, Repr

/-- The accepting edge, as the transaction level sees it: the host's action is used up (R29). -/
def State.acceptHead (s : State) (rest : List HostAction) : State :=
  { s with host := rest }

/-- R84: "Reset (70_reset_and_hazards.md rule R90) overrides everything", so a reset at the head of the host's list goes
before a command in flight; a command in flight goes before the next acceptance (R36; log 7). -/
def fetch (s : State) : Fetched :=
  match s.host, s.inFlight with
  | .reset :: rest, _ => .resetEdge { s with host := rest }
  | _, some f => .completes f
  | [], none => .nothing
  | .command w din :: rest, none =>
    match decode w with
    | .ok i => .instruction i ((s.acceptHead rest).sampleDin i din)
    | .error _ => .illegal (s.acceptHead rest)

end Sys2Proof.Machine
end

