-- ==== Sys2Proof/Machine/Step.lean ====
section
/-! DEFINITION. One transaction (R28, R48): each command is one atomic step. -/
namespace Sys2Proof.Machine

/-- R48: "Every accepted command runs the step below as one atomic transition". With nothing offered and nothing in
flight, the block waits and its state is unchanged (log 8). -/
def step (s : State) : Host.Outcome State Fault Refusal :=
  match fetch s with
  | .nothing => .next s
  | .resetEdge s' => .next s'.resetEdge
  | .completes f => .next (s.complete f)
  | .illegal s' => .next (s'.raise .illegal)
  | .instruction i s' => exec i s'

/-- The host offers the given word next, with the present `din`, and no command is in flight, so that the next step
accepts it (log 3). -/
def State.withFetchWord (s : State) (nbits w : Nat) : State :=
  { s with host := .command (BitVec.ofNat 32 (w % 2 ^ nbits)) s.din :: s.host, inFlight := none }

end Sys2Proof.Machine
end

