-- ==== Sys2Proof/Machine/Asm.lean ====
section
/-! DEFINITION. The assembler: one command a line (R46), the pseudo-instructions (R47), the `.word` directive. Details of
the text that R46 does not give are log 15. -/
namespace Sys2Proof.Machine

/-- R47. -/
inductive Pseudo where
  /-- Copy. -/
  | mov (rd rs : Reg)
  /-- Square root. -/
  | sqrt (rd rs : Reg)
  /-- `n`-fold squaring. -/
  | sqrn (rd rs : Reg) (n : Nat)
  /-- ZERO; needs `E[rs]` defined. -/
  | zero (rd rs : Reg)
  deriving DecidableEq, Repr

/-- R47: "An assembler expands each into one command". -/
def Pseudo.expand : Pseudo → Instr
  | .mov rd rs => .rot rd rs 0#8
  | .sqrt rd rs => .rot rd rs 1#8
  | .sqrn rd rs n => .rot rd rs (BitVec.ofNat 8 ((233 - n % 233) % 233))
  | .zero rd rs => .add rd rs rs

/-- One assembler line (R46). -/
inductive AsmLine where
  | instr (i : Instr)
  | pseudo (p : Pseudo)
  /-- `.word <value>`: "emits the 32-bit word `<value>` as it is, legal or not". -/
  | word (w : Word)
  deriving DecidableEq, Repr

/-- The word of a line. -/
def AsmLine.assemble : AsmLine → Word
  | .instr i => encode i
  | .pseudo p => encode p.expand
  | .word w => w

/-- What a line begins with (R46, R47). -/
inductive AsmOp where
  | nop | ld | st | clr | add | sqr | rot | trc | mul | pow | inv
  | mov | sqrt | sqrn | zero | word
  deriving DecidableEq, Repr

/-- Mnemonics in lower case, and the directive. -/
def asmNames : List (List Char × AsmOp) :=
  [(['n', 'o', 'p'], .nop), (['l', 'd'], .ld), (['s', 't'], .st), (['c', 'l', 'r'], .clr),
   (['a', 'd', 'd'], .add), (['s', 'q', 'r'], .sqr), (['r', 'o', 't'], .rot), (['t', 'r', 'c'], .trc),
   (['m', 'u', 'l'], .mul), (['p', 'o', 'w'], .pow), (['i', 'n', 'v'], .inv), (['m', 'o', 'v'], .mov),
   (['s', 'q', 'r', 't'], .sqrt), (['s', 'q', 'r', 'n'], .sqrn), (['z', 'e', 'r', 'o'], .zero),
   (['.', 'w', 'o', 'r', 'd'], .word)]

/-- R46: "The mnemonic comes first, in upper or lower case". -/
def asmOp (m : List Char) : Option AsmOp :=
  match asmNames.lookup m with
  | some op => some op
  | none => (asmNames.map fun p => (p.1.map Char.toUpper, p.2)).lookup m

/-- White space within a line: a space or a tab. -/
def isBlank (c : Char) : Bool := c = ' ' || c = '\t'

/-- A text without the white space around it. -/
def trim (l : List Char) : List Char := ((l.dropWhile isBlank).reverse.dropWhile isBlank).reverse

/-- The texts between commas. -/
def splitCommas : List Char → List (List Char)
  | [] => [[]]
  | c :: cs =>
    match splitCommas cs with
    | [] => [[c]]
    | w :: ws => if c = ',' then [] :: w :: ws else (c :: w) :: ws

/-- "Operands are separated by commas" (R46); a blank text has no operand. -/
def operands (l : List Char) : List (List Char) :=
  if trim l = [] then [] else (splitCommas l).map trim

/-- "A register is written `e0` .. `e7`" (R46). -/
def parseReg : List Char → Option Reg
  | ['e', '0'] => some 0
  | ['e', '1'] => some 1
  | ['e', '2'] => some 2
  | ['e', '3'] => some 3
  | ['e', '4'] => some 4
  | ['e', '5'] => some 5
  | ['e', '6'] => some 6
  | ['e', '7'] => some 7
  | _ => none

/-- A digit's value, below the base. -/
def digitValue (base : Nat) (c : Char) : Option Nat :=
  let v :=
    if '0' ≤ c ∧ c ≤ '9' then some (c.toNat - '0'.toNat)
    else if 'a' ≤ c ∧ c ≤ 'f' then some (c.toNat - 'a'.toNat + 10)
    else if 'A' ≤ c ∧ c ≤ 'F' then some (c.toNat - 'A'.toNat + 10)
    else none
  v.filter (· < base)

/-- A nonempty run of digits, most significant first. -/
def parseDigits (base : Nat) (l : List Char) : Option Nat :=
  if l = [] then none
  else l.foldl (fun acc c => acc.bind fun n => (digitValue base c).map fun d => n * base + d) (some 0)

/-- "An immediate is written in decimal or as `0x` hexadecimal" (R46), at most `max`. -/
def parseImm (max : Nat) (l : List Char) : Option Nat :=
  let v :=
    match l with
    | '0' :: 'x' :: ds => parseDigits 16 ds
    | ds => parseDigits 10 ds
  v.filter (· ≤ max)

/-- The line an operation and its operands make: "always the destination first, then the sources, then the immediate",
with `k` in 0..255 and `len` in 0..233 (R46). -/
def asmLine (op : AsmOp) (args : List (List Char)) : Option AsmLine :=
  match op, args with
  | .nop, [] => some (.instr .nop)
  | .clr, [] => some (.instr .clr)
  | .ld, [d] => do return .instr (.ld (← parseReg d))
  | .st, [a] => do return .instr (.st (← parseReg a))
  | .trc, [a] => do return .instr (.trc (← parseReg a))
  | .sqr, [d, a] => do return .instr (.sqr (← parseReg d) (← parseReg a))
  | .inv, [d, a] => do return .instr (.inv (← parseReg d) (← parseReg a))
  | .mov, [d, a] => do return .pseudo (.mov (← parseReg d) (← parseReg a))
  | .sqrt, [d, a] => do return .pseudo (.sqrt (← parseReg d) (← parseReg a))
  | .zero, [d, a] => do return .pseudo (.zero (← parseReg d) (← parseReg a))
  | .add, [d, a, b] => do return .instr (.add (← parseReg d) (← parseReg a) (← parseReg b))
  | .mul, [d, a, b] => do return .instr (.mul (← parseReg d) (← parseReg a) (← parseReg b))
  | .rot, [d, a, k] => do
    return .instr (.rot (← parseReg d) (← parseReg a) (BitVec.ofNat 8 (← parseImm 255 k)))
  | .sqrn, [d, a, n] => do
    return .pseudo (.sqrn (← parseReg d) (← parseReg a) (← parseDigits 10 n))
  | .pow, [d, a, b, n] => do
    return .instr (.pow (← parseReg d) (← parseReg a) (← parseReg b) (BitVec.ofNat 8 (← parseImm 233 n)))
  | .word, [v] => do return .word (BitVec.ofNat 32 (← parseImm (2 ^ 32 - 1) v))
  | _, _ => none

/-- What the assembler makes of one line of text. -/
inductive AsmResult where
  /-- Nothing but white space and a comment. -/
  | empty
  | line (l : AsmLine)
  /-- The line is rejected. -/
  | rejected
  deriving DecidableEq, Repr

/-- One line of text: "A comment starts with `;`" (R46). -/
def assembleText (text : List Char) : AsmResult :=
  let l := trim (text.takeWhile (· ≠ ';'))
  if l = [] then .empty
  else
    let parsed := do
      let op ← asmOp (l.takeWhile fun c => !isBlank c)
      asmLine op (operands (l.dropWhile fun c => !isBlank c))
    match parsed with
    | some x => .line x
    | none => .rejected

/-- A register as R46 writes it. -/
def regText (r : Reg) : List Char := ['e', Char.ofNat ('0'.toNat + r.val)]

/-- R46's line for a command, immediates in decimal. -/
def instrText : Instr → List Char
  | .nop => ['N', 'O', 'P']
  | .ld rd => ['L', 'D', ' '] ++ regText rd
  | .st rs1 => ['S', 'T', ' '] ++ regText rs1
  | .clr => ['C', 'L', 'R']
  | .add rd rs1 rs2 => ['A', 'D', 'D', ' '] ++ regText rd ++ [',', ' '] ++ regText rs1 ++ [',', ' '] ++ regText rs2
  | .sqr rd rs1 => ['S', 'Q', 'R', ' '] ++ regText rd ++ [',', ' '] ++ regText rs1
  | .rot rd rs1 k =>
    ['R', 'O', 'T', ' '] ++ regText rd ++ [',', ' '] ++ regText rs1 ++ [',', ' '] ++ Nat.toDigits 10 k.toNat
  | .trc rs1 => ['T', 'R', 'C', ' '] ++ regText rs1
  | .mul rd rs1 rs2 => ['M', 'U', 'L', ' '] ++ regText rd ++ [',', ' '] ++ regText rs1 ++ [',', ' '] ++ regText rs2
  | .pow rd rs1 rs2 len =>
    ['P', 'O', 'W', ' '] ++ regText rd ++ [',', ' '] ++ regText rs1 ++ [',', ' '] ++ regText rs2 ++ [',', ' '] ++
      Nat.toDigits 10 len.toNat
  | .inv rd rs1 => ['I', 'N', 'V', ' '] ++ regText rd ++ [',', ' '] ++ regText rs1

end Sys2Proof.Machine
end

