-- ==== Sys2Proof/Machine/Cost.lean ====
section
/-! DEFINITION. Operation counts (R74, R77, R96): the control flow of POW and INV run on counts instead of elements. No
meaning depends on them. -/
namespace Sys2Proof.Machine

/-- How many squarings and multiplications led to a value. -/
structure Cost where
  sqr : Nat
  mul : Nat
  deriving DecidableEq, Repr

/-- Counting primitives: an operation adds one to the count of the value it continues (its left operand; the right one is
an earlier value, counted already). -/
def costOps : FieldOps Cost where
  one := ⟨0, 0⟩
  sqr := fun c => { c with sqr := c.sqr + 1 }
  mul := fun c _ => { c with mul := c.mul + 1 }

/-- What one POW costs (R96), by the exponent alone. -/
def powCost (x : Elem) (len : Nat) : Cost := powWith costOps ⟨0, 0⟩ x len

/-- What one INV costs (R77, R96). -/
def invCost : Cost := itohTsujiiWith costOps ⟨0, 0⟩

end Sys2Proof.Machine
end

