-- ==== Sys2Proof/Machine/Serial.lean ====
section
/-! DEFINITION. The string form of an element (R15, R16): host software by D29, modelled for its bit-order contract. The
block never handles characters. -/
namespace Sys2Proof.Machine

/-- Why the host rejects a string (R16, R83), before it drives `din`. -/
inductive Malformed where
  /-- Longer than 233 characters. -/
  | tooLong
  /-- A character other than '0' and '1'. -/
  | badCharacter
  deriving DecidableEq, Repr

/-- The coefficients of a big-endian bit string: "the string's rightmost character becomes coefficient index 0" (R15), a
shorter string being padded with zeros on the left (R16). -/
def bitsOfString (cs : List Char) : Elem :=
  cs.foldl (fun a c => a <<< 1 ||| (if c = '1' then 1#233 else 0#233)) ZERO

/-- The host's construction of an element from a string; R16: "must fail fast with a clear validation error". -/
def elemOfString (cs : List Char) : Except Malformed Elem :=
  if 233 < cs.length then .error .tooLong
  else if cs.all fun c => c = '0' || c = '1' then .ok (bitsOfString cs)
  else .error .badCharacter

/-- The host's serialization: index 232 first, "exactly m characters" (R15). -/
def stringOfElem (a : Elem) : List Char :=
  (List.range 233).map fun j => if a.getLsbD (232 - j) then '1' else '0'

end Sys2Proof.Machine
end

