-- ==== Sys2Proof/Machine/Flags.lean ====
section
/-! DEFINITION. The STATUS register and the `cmd_ready` output (R20, R23). -/
namespace Sys2Proof.Machine

/-- The `status[31:0]` port (R20): BUSY bit 0, T bit 1, ILL bit 8, DOM bit 9, every reserved bit 0. -/
def State.status (s : State) : Word :=
  0#22 ++ BitVec.ofBool s.dom ++ BitVec.ofBool s.ill ++ 0#6 ++ BitVec.ofBool s.t ++ BitVec.ofBool s.busy

/-- The `cmd_ready` port: R23 "`NOT BUSY` while `rst_n` = 1, else 0". -/
def State.cmdReady (s : State) (rstN : Bool) : Bool := rstN && !s.busy

end Sys2Proof.Machine
end

