-- ==== Sys2Proof/Machine/Edge.lean ====
section
/-! DEFINITION. The clock level (R21, R23, R29, R90, R93, R97): one rising edge of `clk`, with LAT an argument. -/
namespace Sys2Proof.Machine

/-- The input ports at one rising edge (R23). -/
structure Pins where
  rstN : Bool
  cmdValid : Bool
  cmd : Word
  din : Elem
  deriving DecidableEq, Repr

/-- The edge that accepts a command raises BUSY (R21) and starts the count to its completion (R97). -/
def State.launch (tm : Config.Timing) (s : State) (word : Word) (a b : Elem) (engine : Engine) : State :=
  { s with inFlight := some { word, a, b, left := tm.lat word a b, engine } }

/-- The accepting edge (R29, R30): `cmd` is sampled, and `din` for LD alone (R23); the sources are checked and the operands
latched (R18, R48), and nothing else changes before completion (R21). -/
def State.accept (tm : Config.Timing) (p : Pins) (s : State) : Result :=
  match decode p.cmd with
  | .ok i =>
    (s.sampleDin i p.din).withLatched i fun a b => .next ((s.sampleDin i p.din).launch tm p.cmd a b (Engine.start i a b))
  | .error _ => .next (s.launch tm p.cmd ZERO ZERO .idle)

/-- A busy edge before the completing one: one edge fewer is left, and the engine does some of its rounds (R27, R70). -/
def InFlight.tick (tm : Config.Timing) (f : InFlight) : InFlight :=
  { f with
    left := f.left - 1
    engine := (Engine.round f.a f.b)^[tm.pace f.word f.a f.b f.left] f.engine }

/-- One rising edge. Reset overrides everything (R84, R90); while BUSY nothing is accepted (R29); the edge at which no
more edges are left completes the command (R21, R97); an idle block accepts an offered command (R29). -/
def edge (tm : Config.Timing) (p : Pins) (s : State) : Result :=
  if p.rstN then
    match s.inFlight with
    | some f =>
      if f.left ≤ 1 then .next (s.complete f) else .next { s with inFlight := some (f.tick tm) }
    | none => if p.cmdValid then s.accept tm p else .next s
  else .next s.resetEdge

/-- Consecutive edges, stopping at a model fault. -/
def edges (tm : Config.Timing) : List Pins → State → Result
  | [], s => .next s
  | p :: ps, s =>
    match edge tm p s with
    | .next s' => edges tm ps s'
    | .fault r => .fault r
    | .refused r => .refused r

end Sys2Proof.Machine
end

