-- ==== Sys2Proof/Safety.lean ====
section
/-! DEFINITION. What claims are stated in terms of: a command's readiness, a run without a model fault, the boot rule for
a host's program (R92), the invariant of the command in flight (R27, R30), and equality up to undefined registers (R18). -/
namespace Sys2Proof.Machine

/-- Every source register the command reads was written since the last reset (R18, R48). -/
def SourcesDefined (i : Instr) (s : State) : Prop := ∀ r ∈ sources i, s.isDefined r = true

/-- `t` is `s` with element register `rd` holding `v`, written and defined, and nothing else changed: every other register
and its definedness, T, ILL, DOM, DOUT, and what is in flight or still offered. -/
structure WritesElement (s t : State) (rd : Reg) (v : Elem) : Prop where
  value : t.reg rd = v
  defined : t.isDefined rd = true
  others : ∀ r, r ≠ rd → t.reg r = s.reg r ∧ t.isDefined r = s.isDefined r
  trace : t.t = s.t
  ill : t.ill = s.ill
  dom : t.dom = s.dom
  dout : t.dout = s.dout
  inFlight : t.inFlight = s.inFlight
  din : t.din = s.din
  host : t.host = s.host

/-- The run never stops: every number of steps answers a next state. -/
def NeverStops (s : State) : Prop := ∀ n, ∃ t : State, Host.Core.run Sys2Proof.core n s = .next t

/-- What is known of an element register of a host's program, before it runs. -/
inductive Known where
  /-- Nothing: it may be unwritten since the last reset. -/
  | nothing
  /-- It was written since the last reset. -/
  | written
  /-- It was written since the last reset, with a value other than ZERO. -/
  | nonzero
  deriving DecidableEq, Repr

/-- What is known of a register is so in a state. -/
def Known.Holds (s : State) (r : Reg) : Known → Prop
  | .nothing => True
  | .written => s.isDefined r = true
  | .nonzero => s.isDefined r = true ∧ s.reg r ≠ ZERO

/-- What is known after a command whose sources are written. INV of a value that may be ZERO may raise DOMAIN and then writes
nothing (R75), so only INV of a value known not to be ZERO adds knowledge. A rotation, a product, a power and an inverse of
values other than ZERO are not ZERO (R58, R71, R74, R78). -/
def knownAfter (i : Instr) (din : Elem) (d : Vector Known 8) : Vector Known 8 :=
  match i with
  | .nop => d
  | .ld rd => d.set rd (if din = ZERO then .written else .nonzero)
  | .st _ => d
  | .clr => d
  | .add rd _ _ => d.set rd .written
  | .sqr rd rs1 => d.set rd (d.get rs1)
  | .rot rd rs1 _ => d.set rd (d.get rs1)
  | .trc _ => d
  | .mul rd rs1 rs2 => d.set rd (if d.get rs1 = .nonzero ∧ d.get rs2 = .nonzero then .nonzero else .written)
  | .pow rd rs1 _ _ => d.set rd (d.get rs1)
  | .inv rd rs1 => if d.get rs1 = .nonzero then d.set rd .nonzero else d

/-- R92, as a check of a host's program before it runs: "write every element register it will read, with LD or a computing
command, before that read". `d` is what is known so far; a reset forgets all of it, an illegal word changes none of it. -/
def bootChecked (d : Vector Known 8) : List HostAction → Bool
  | [] => true
  | .reset :: rest => bootChecked (Vector.replicate 8 .nothing) rest
  | .command w din :: rest =>
    match decode w with
    | .ok i => (sources i).all (fun r => d.get r ≠ .nothing) && bootChecked (knownAfter i din d) rest
    | .error _ => bootChecked d rest

/-- An idle state whose host's program passes the check, from knowledge that is so in the state. -/
def State.BootReady (s : State) : Prop :=
  s.inFlight = none ∧ ∃ d : Vector Known 8, (∀ r : Reg, (d.get r).Holds s r) ∧ bootChecked d s.host = true

/-- A command in flight is sound in a state: it still has an edge to go (R97), its latched operands are what its defined
source registers hold, for LD the sampled `din` value (R30, R48; while BUSY no register changes, R21), and its engine is some number of rounds after its
start on those operands (R27). An illegal word holds no operands and no engine. -/
def InFlight.Sound (f : InFlight) (s : State) : Prop :=
  1 ≤ f.left ∧
    match decode f.word with
    | .ok i =>
      (∀ k : Elem → Elem → Result, s.withLatched i k = k f.a f.b) ∧
        ∃ n, f.engine = (Engine.round f.a f.b)^[n] (Engine.start i f.a f.b)
    | .error _ => f.a = ZERO ∧ f.b = ZERO ∧ f.engine = .idle

/-- The invariant of the machine: whatever is in flight is sound. -/
def State.Sound (s : State) : Prop := ∀ f, s.inFlight = some f → f.Sound s

/-- Two states that agree on everything but the stored values of undefined registers (R18). -/
structure SameButUndefined (s t : State) : Prop where
  edef : s.edef = t.edef
  e : ∀ r, s.isDefined r = true → s.reg r = t.reg r
  trace : s.t = t.t
  ill : s.ill = t.ill
  dom : s.dom = t.dom
  dout : s.dout = t.dout
  inFlight : s.inFlight = t.inFlight
  din : s.din = t.din
  host : s.host = t.host

/-- Two outcomes that agree: the same stop, or next states that agree up to undefined registers. -/
def SameOutcome : Result → Result → Prop
  | .next s, .next t => SameButUndefined s t
  | .fault r, .fault q => r = q
  | .refused r, .refused q => r = q
  | _, _ => False

/-- `a` multiplied by itself `e` times, starting from ONE: the meaning of `a^e` in R74. -/
def selfProduct (a : Elem) : Nat → Elem
  | 0 => ONE
  | e + 1 => fieldMul (selfProduct a e) a

end Sys2Proof.Machine
end

