-- ==== Sys2Proof/Certificates/Slice0/Obligations.lean ====
section
/-! DEFINITION. The statements about ONB233-CORE. Each names the rule it formalises; OBLIGATIONS.json lists them. -/

open Sys2Proof Sys2Proof.Machine

/-! ## Encoding (R39 to R45) -/

/-- R39 to R43: every well-formed instruction, with every operand at every value its field admits, decodes from its word. -/
def Obligations.DecodeOfEncodeIsInstruction : Prop :=
  ∀ i : Instr, i.wellFormed = true → decode (encode i) = .ok i

/-- R43, R45: a word that decodes has no other spelling: it is the word of what it decodes to, and that is well formed. -/
def Obligations.LegalWordIsEncodingOfItsInstruction : Prop :=
  ∀ (w : Word) (i : Instr), decode w = .ok i → i.wellFormed = true ∧ encode i = w

/-- R43: a word is the listed command exactly when it agrees with the row's match under the row's mask, with `imm8` at most
233 for POW. The rows are the rule's own. -/
def Obligations.WordIsCommandExactlyByMatchAndMask : Prop :=
  ∀ row ∈ ([("NOP", 0x00000000, 0xFFFFFFFF), ("LD", 0x10000000, 0xF1FFFFFF), ("ST", 0x20000000, 0xFE3FFFFF),
      ("CLR", 0x30000000, 0xFFFFFFFF), ("ADD", 0x40000000, 0xF007FFFF), ("SQR", 0x50000000, 0xF03FFFFF),
      ("ROT", 0x60000000, 0xF03807FF), ("TRC", 0x70000000, 0xFE3FFFFF), ("MUL", 0x80000000, 0xF007FFFF),
      ("POW", 0x90000000, 0xF00007FF), ("INV", 0xA0000000, 0xF03FFFFF)] : List (String × Word × Word)),
    ∀ w : Word, (∃ i, decode w = .ok i ∧ i.mnemonic = row.1) ↔
      (w &&& row.2.2 = row.2.1 ∧ (row.1 = "POW" → (w.extractLsb' 11 8).toNat ≤ 233))

/-- R40, R41: the operands of a decoded command are its fields `cmd[27:25]`, `cmd[24:22]`, `cmd[21:19]`, `cmd[18:11]`, read as
unsigned numbers. -/
def Obligations.DecodedOperandsAreTheirFields : Prop :=
  ∀ w : Word,
    let rd := (w.extractLsb' 25 3).toNat
    let rs1 := (w.extractLsb' 22 3).toNat
    let rs2 := (w.extractLsb' 19 3).toNat
    let imm8 := (w.extractLsb' 11 8).toNat
    (∀ d, decode w = .ok (.ld d) → d.val = rd) ∧
    (∀ a, decode w = .ok (.st a) → a.val = rs1) ∧
    (∀ a, decode w = .ok (.trc a) → a.val = rs1) ∧
    (∀ d a, decode w = .ok (.sqr d a) → d.val = rd ∧ a.val = rs1) ∧
    (∀ d a, decode w = .ok (.inv d a) → d.val = rd ∧ a.val = rs1) ∧
    (∀ d a b, decode w = .ok (.add d a b) → d.val = rd ∧ a.val = rs1 ∧ b.val = rs2) ∧
    (∀ d a b, decode w = .ok (.mul d a b) → d.val = rd ∧ a.val = rs1 ∧ b.val = rs2) ∧
    (∀ d a k, decode w = .ok (.rot d a k) → d.val = rd ∧ a.val = rs1 ∧ k.toNat = imm8) ∧
    (∀ d a b k, decode w = .ok (.pow d a b k) → d.val = rd ∧ a.val = rs1 ∧ b.val = rs2 ∧ k.toNat = imm8)

/-- 95_test_vectors.md 2.1: words written out from R43's table and what they decode as. -/
def Obligations.TabledWordsDecode : Prop :=
  decode 0x00000000#32 = .ok .nop ∧ decode 0x16000000#32 = .ok (.ld 3) ∧ decode 0x20C00000#32 = .ok (.st 3) ∧
  decode 0x30000000#32 = .ok .clr ∧ decode 0x44080000#32 = .ok (.add 2 0 1) ∧ decode 0x52000000#32 = .ok (.sqr 1 0) ∧
  decode 0x62004000#32 = .ok (.rot 1 0 8#8) ∧ decode 0x70000000#32 = .ok (.trc 0) ∧
  decode 0x84080000#32 = .ok (.mul 2 0 1) ∧ decode 0x94081000#32 = .ok (.pow 2 0 1 2#8) ∧
  decode 0xA2000000#32 = .ok (.inv 1 0)

/-- R44: a word is illegal exactly when its opcode is 0xB..0xF, or a field that its opcode does not use (R42) is nonzero, or
it is POW with `imm8` above 233; and every illegal word, whichever its cause, sets ILL and changes nothing else. -/
def Obligations.WordIsIllegalExactlyByItsCauses : Prop :=
  (∀ w : Word,
    let op := (w.extractLsb' 28 4).toNat
    (∃ x, decode w = .error x) ↔
      (0xB ≤ op ∨ w.extractLsb' 0 11 ≠ 0#11 ∨
        (op ∉ [0x6, 0x9] ∧ w.extractLsb' 11 8 ≠ 0#8) ∨
        (op ∉ [0x4, 0x8, 0x9] ∧ w.extractLsb' 19 3 ≠ 0#3) ∨
        (op ∉ [0x2, 0x4, 0x5, 0x6, 0x7, 0x8, 0x9, 0xA] ∧ w.extractLsb' 22 3 ≠ 0#3) ∨
        (op ∉ [0x1, 0x4, 0x5, 0x6, 0x8, 0x9, 0xA] ∧ w.extractLsb' 25 3 ≠ 0#3) ∨
        (op = 0x9 ∧ 233 < (w.extractLsb' 11 8).toNat))) ∧
  (∀ (s : State) (w : Word) (din : Elem) (rest : List HostAction) (x : Illegal),
    s.inFlight = none → s.host = .command w din :: rest → decode w = .error x →
      step s = .next { s with host := rest, ill := true })

/-! ## The step (R48, R84, R90, R91) -/

/-- R48: when the block is idle and the host's next command word decodes to an instruction, the step is `exec` of that
instruction at the state that has taken the command, and for LD sampled its `din`; the first of its sources that is undefined
makes it the model fault UNINIT. A word that decodes to none raises ILLEGAL and INV of ZERO raises DOMAIN: the step then
changes its status bit alone. A command that completes leaves every register but its destination, T unless it is TRC, DOUT
unless it is ST, ILL and DOM unless it is CLR or raises DOMAIN. The field that keeps LD's sample is the model's choice (log 4). -/
def Obligations.StepRunsDecodedInstruction : Prop :=
  ∀ (s : State) (w : Word) (din : Elem) (rest : List HostAction),
    s.inFlight = none → s.host = .command w din :: rest →
      (∀ rd, decode w = .ok (.ld rd) → step s = exec (.ld rd) { s with host := rest, din := din }) ∧
      (∀ i, decode w = .ok i → (∀ rd, i ≠ .ld rd) → step s = exec i { s with host := rest }) ∧
      (∀ i r, decode w = .ok i → (sources i).find? (fun r => !s.isDefined r) = some r → step s = .fault (.uninit r)) ∧
      (∀ x, decode w = .error x → step s = .next { s with host := rest, ill := true }) ∧
      (∀ rd rs1, decode w = .ok (.inv rd rs1) → s.isDefined rs1 = true → s.reg rs1 = ZERO →
        step s = .next { s with host := rest, dom := true }) ∧
      (∀ i t, decode w = .ok i → step s = .next t →
        (∀ r, destination i ≠ some r → t.reg r = s.reg r ∧ t.isDefined r = s.isDefined r) ∧
        (t.t ≠ s.t → ∃ rs1, i = .trc rs1) ∧ (t.dout ≠ s.dout → ∃ rs1, i = .st rs1) ∧
        (t.ill ≠ s.ill → i = .clr) ∧
        (t.dom ≠ s.dom → i = .clr ∨ ∃ rd rs1, i = .inv rd rs1 ∧ s.reg rs1 = ZERO))

/-- R80: an illegal word, whatever registers are undefined, sets ILL, which STATUS bit 8 then shows, and records nothing else:
T, DOM, DOUT, every element register and its definedness are as before. -/
def Obligations.IllegalWordSetsIllOnly : Prop :=
  ∀ (s : State) (w : Word) (din : Elem) (rest : List HostAction) (x : Illegal),
    s.inFlight = none → s.host = .command w din :: rest → decode w = .error x →
      ∃ t, step s = .next t ∧ t.ill = true ∧ t.status.getLsbD 8 = true ∧ t.dom = s.dom ∧ t.t = s.t ∧ t.dout = s.dout ∧
        t.inFlight = none ∧ t.host = rest ∧ ∀ r, t.reg r = s.reg r ∧ t.isDefined r = s.isDefined r

/-- The model's own conventions: with nothing offered and nothing in flight the state stays as it is (log 8); the step after
`withFetchWord` runs exactly the given word (log 3); POW with `len` above 233, which no word decodes to, raises ILLEGAL,
whatever is undefined, and changes nothing else (log 12). -/
def Obligations.ConventionsOfTheStep : Prop :=
  (∀ s : State, s.inFlight = none → s.host = [] → step s = .next s) ∧
  (∀ (s : State) (w : Word) (i : Instr), decode w = .ok i →
    step (s.withFetchWord 32 w.toNat) = exec i { s with inFlight := none }) ∧
  (∀ (rd rs1 rs2 : Reg) (len : BitVec 8) (s : State), 233 < len.toNat →
    exec (.pow rd rs1 rs2 len) s = .next { s with ill := true })

/-- R18, R48, R84: no register is defined after reset and any write defines it. A well-formed command either stops with UNINIT of
its first undefined source, rs1 before rs2, or has every source defined and answers a next state. It never stops otherwise. -/
def Obligations.CommandStopsExactlyOnFirstUndefinedSource : Prop :=
  (∀ r, State.reset.isDefined r = false) ∧ (∀ (s : State) (r : Reg) (v : Elem), (s.writeReg r v).isDefined r = true) ∧
  ∀ (i : Instr) (s : State), i.wellFormed = true →
    (∃ r, (sources i).find? (fun r => !s.isDefined r) = some r ∧ exec i s = .fault (.uninit r)) ∨
    (SourcesDefined i s ∧ ∃ t, exec i s = .next t)

/-- R84: ILLEGAL comes before UNINIT, and UNINIT before DOMAIN, and the first alone is reported. An illegal word, INV's opcode
among them, answers a next state with ILL set and DOM as it was, whatever is undefined or ZERO; of two undefined sources rs1 is the one reported; INV of an undefined register stops and never raises DOMAIN,
whatever value is stored in it. A reset overrides everything, a command in flight too. -/
def Obligations.IllegalBeforeUninitBeforeDomain : Prop :=
  (∀ (s : State) (w : Word) (din : Elem) (rest : List HostAction) (x : Illegal),
    s.inFlight = none → s.host = .command w din :: rest → decode w = .error x →
      ∃ t, step s = .next t ∧ t.ill = true ∧ t.dom = s.dom) ∧
  (∀ (s : State) (rd rs1 rs2 : Reg) (len : BitVec 8), s.isDefined rs1 = false → len.toNat ≤ 233 →
    exec (.add rd rs1 rs2) s = .fault (.uninit rs1) ∧ exec (.mul rd rs1 rs2) s = .fault (.uninit rs1) ∧
    exec (.pow rd rs1 rs2 len) s = .fault (.uninit rs1)) ∧
  (∀ (s : State) (rd rs1 : Reg), s.isDefined rs1 = false → exec (.inv rd rs1) s = .fault (.uninit rs1)) ∧
  (∀ (s : State) (rest : List HostAction), s.host = .reset :: rest →
    ∃ t, step s = .next t ∧ t.inFlight = none ∧ t.ill = false ∧ t.dom = false)

/-! ## Transfer and control (R49 to R52) -/

/-- R49: NOP completes and changes nothing; its word is 0x00000000, and any other word of opcode 0x0 is illegal. -/
def Obligations.NopChangesNothing : Prop :=
  encode .nop = 0x00000000#32 ∧ (∀ s : State, exec .nop s = .next s) ∧
  ∀ w : Word, w.extractLsb' 28 4 = 0x0#4 → w ≠ 0x00000000#32 → ∃ x, decode w = .error x

/-- R50: LD completes from every state, with `E[rd]` the sampled `din` and nothing else changed; its word is
`0x10000000 | rd << 25`. -/
def Obligations.LdWritesSampledDin : Prop :=
  ∀ (rd : Reg) (s : State),
    encode (.ld rd) = 0x10000000#32 ||| (BitVec.ofNat 32 rd.val <<< 25) ∧
    ∃ t, exec (.ld rd) s = .next t ∧ WritesElement s t rd s.din

/-- R51: ST of a defined register completes with DOUT its value and nothing else changed; of an undefined one it stops; its
word is `0x20000000 | rs1 << 22`. -/
def Obligations.StWritesDout : Prop :=
  ∀ (rs1 : Reg) (s : State),
    encode (.st rs1) = 0x20000000#32 ||| (BitVec.ofNat 32 rs1.val <<< 22) ∧
    (s.isDefined rs1 = true → exec (.st rs1) s = .next { s with dout := s.reg rs1 }) ∧
    (s.isDefined rs1 = false → exec (.st rs1) s = .fault (.uninit rs1))

/-- R52: CLR completes with ILL and DOM both 0 and nothing else changed, T included; its word is 0x30000000, and any other word
of opcode 0x3 is illegal. -/
def Obligations.ClrClearsBothErrors : Prop :=
  encode .clr = 0x30000000#32 ∧ (∀ s : State, exec .clr s = .next { s with ill := false, dom := false }) ∧
  ∀ w : Word, w.extractLsb' 28 4 = 0x3#4 → w ≠ 0x30000000#32 → ∃ x, decode w = .error x

/-! ## Additive and Frobenius family (R53 to R60, R47) -/

/-- R53: ADD of two defined registers completes with `c[i] = a[i] XOR b[i]` in rd and nothing else changed; an undefined source
stops it, rs1 checked first; its word is `0x40000000 | rd << 25 | rs1 << 22 | rs2 << 19`. -/
def Obligations.AddWritesLanewiseXor : Prop :=
  ∀ (rd rs1 rs2 : Reg) (s : State),
    encode (.add rd rs1 rs2) = 0x40000000#32 ||| (BitVec.ofNat 32 rd.val <<< 25) ||| (BitVec.ofNat 32 rs1.val <<< 22) |||
      (BitVec.ofNat 32 rs2.val <<< 19) ∧
    (s.isDefined rs1 = true → s.isDefined rs2 = true → ∃ t c, exec (.add rd rs1 rs2) s = .next t ∧ WritesElement s t rd c ∧
      ∀ i, i < 233 → c.getLsbD i = ((s.reg rs1).getLsbD i ^^ (s.reg rs2).getLsbD i)) ∧
    (s.isDefined rs1 = false → exec (.add rd rs1 rs2) s = .fault (.uninit rs1)) ∧
    (s.isDefined rs1 = true → s.isDefined rs2 = false → exec (.add rd rs1 rs2) s = .fault (.uninit rs2))

/-- R54: ADD is commutative and associative, `ADD(a,a) = ZERO`, `ADD(a,ZERO) = a`. -/
def Obligations.AdditionLaws : Prop :=
  ∀ a b c : Elem, fieldAdd a b = fieldAdd b a ∧ fieldAdd (fieldAdd a b) c = fieldAdd a (fieldAdd b c) ∧
    fieldAdd a a = ZERO ∧ fieldAdd a ZERO = a

/-- R55: SQR of a defined register completes with `c[232] = a[0]`, `c[i] = a[i+1]` in rd and nothing else changed; of an
undefined one it stops; its word is `0x50000000 | rd << 25 | rs1 << 22`. -/
def Obligations.SqrRotatesOnePlace : Prop :=
  ∀ (rd rs1 : Reg) (s : State),
    encode (.sqr rd rs1) = 0x50000000#32 ||| (BitVec.ofNat 32 rd.val <<< 25) ||| (BitVec.ofNat 32 rs1.val <<< 22) ∧
    (s.isDefined rs1 = true → ∃ t c, exec (.sqr rd rs1) s = .next t ∧ WritesElement s t rd c ∧
      c.getLsbD 232 = (s.reg rs1).getLsbD 0 ∧ ∀ i, i < 232 → c.getLsbD i = (s.reg rs1).getLsbD (i + 1)) ∧
    (s.isDefined rs1 = false → exec (.sqr rd rs1) s = .fault (.uninit rs1))

/-- R56: `SQR(a) = MUL(a,a)`, SQR is additive, 233 squarings return `a`, and SQR fixes ZERO and ONE. -/
def Obligations.SquaringLaws : Prop :=
  (∀ a : Elem, fieldSqr a = fieldMul a a) ∧
  (∀ a b : Elem, fieldSqr (fieldAdd a b) = fieldAdd (fieldSqr a) (fieldSqr b)) ∧
  (∀ a : Elem, fieldSqr^[233] a = a) ∧ fieldSqr ZERO = ZERO ∧ fieldSqr ONE = ONE

/-- R57: ROT of a defined register completes with `c[(i + k mod 233) mod 233] = a[i]` in rd and nothing else changed, for
every k in 0..255; of an undefined one it stops; its word is `0x60000000 | rd << 25 | rs1 << 22 | k << 11`. -/
def Obligations.RotMovesEveryCoefficient : Prop :=
  ∀ (rd rs1 : Reg) (k : BitVec 8) (s : State),
    encode (.rot rd rs1 k) = 0x60000000#32 ||| (BitVec.ofNat 32 rd.val <<< 25) ||| (BitVec.ofNat 32 rs1.val <<< 22) |||
      (k.setWidth 32 <<< 11) ∧
    (s.isDefined rs1 = true → ∃ t c, exec (.rot rd rs1 k) s = .next t ∧ WritesElement s t rd c ∧
      ∀ i, i < 233 → c.getLsbD ((i + k.toNat % 233) % 233) = (s.reg rs1).getLsbD i) ∧
    (s.isDefined rs1 = false → exec (.rot rd rs1 k) s = .fault (.uninit rs1))

/-- R58: how ROT and SQR relate, their directions being opposite. -/
def Obligations.RotationAndSquaringRelations : Prop :=
  (∀ a : Elem, fieldRot a 232 = fieldSqr a) ∧ (∀ a : Elem, fieldSqr (fieldRot a 1) = a) ∧
  (∀ a : Elem, fieldRot a 1 = fieldSqr^[232] a) ∧
  (fieldRot (basisElem 0) 1 = basisElem 1 ∧ fieldSqr (basisElem 0) = basisElem 232 ∧
    fieldRot (basisElem 0) 1 ≠ fieldSqr (basisElem 0)) ∧
  (∀ (a : Elem) (n : Nat), n ≤ 232 → fieldSqr^[n] a = fieldRot a ((233 - n) % 233)) ∧
  (∀ (a : Elem) (k1 k2 : Nat), fieldRot (fieldRot a k1) k2 = fieldRot a ((k1 + k2) % 233))

/-- R59: TRC of a defined register completes with T the parity of its 233 coefficients (1 iff an odd number of them is 1)
and nothing else changed; of an undefined one it stops; its word is `0x70000000 | rs1 << 22`. -/
def Obligations.TrcWritesParityToT : Prop :=
  ∀ (rs1 : Reg) (s : State),
    encode (.trc rs1) = 0x70000000#32 ||| (BitVec.ofNat 32 rs1.val <<< 22) ∧
    (s.isDefined rs1 = true → exec (.trc rs1) s =
      .next { s with t := ((List.range 233).filter fun i => (s.reg rs1).getLsbD i).length % 2 == 1 }) ∧
    (s.isDefined rs1 = false → exec (.trc rs1) s = .fault (.uninit rs1))

/-- R60: the trace is additive, SQR and ROT keep it, `TRC(ONE) = 1`, `TRC(ZERO) = 0`. -/
def Obligations.TraceLaws : Prop :=
  (∀ a b : Elem, fieldTrace (fieldAdd a b) = (fieldTrace a ^^ fieldTrace b)) ∧
  (∀ a : Elem, fieldTrace (fieldSqr a) = fieldTrace a) ∧
  (∀ (a : Elem) (k : Nat), fieldTrace (fieldRot a k) = fieldTrace a) ∧
  fieldTrace ONE = true ∧ fieldTrace ZERO = false

/-- R47: what each pseudo-instruction expands to; and on a defined source MOV copies, SQRT gives the element whose square is the
source, SQRN squares n times and ZERO gives ZERO, each into rd and changing nothing else. -/
def Obligations.PseudoInstructionsMeanTheirRules : Prop :=
  ∀ (rd rs : Reg) (n : Nat),
    ((Pseudo.mov rd rs).expand = .rot rd rs 0#8 ∧ (Pseudo.sqrt rd rs).expand = .rot rd rs 1#8 ∧
      (∃ k : BitVec 8, (Pseudo.sqrn rd rs n).expand = .rot rd rs k ∧ k.toNat = (233 - n % 233) % 233) ∧
      (Pseudo.zero rd rs).expand = .add rd rs rs) ∧
    ∀ s : State, s.isDefined rs = true →
      (∃ t, exec (Pseudo.mov rd rs).expand s = .next t ∧ WritesElement s t rd (s.reg rs)) ∧
      (∃ t c, exec (Pseudo.sqrt rd rs).expand s = .next t ∧ WritesElement s t rd c ∧ fieldSqr c = s.reg rs) ∧
      (∃ t, exec (Pseudo.sqrn rd rs n).expand s = .next t ∧ WritesElement s t rd (fieldSqr^[n] (s.reg rs))) ∧
      (∃ t, exec (Pseudo.zero rd rs).expand s = .next t ∧ WritesElement s t rd ZERO)

/-! ## The matrix (R61 to R66) -/

/-- R61 to R63, R65: the wired table is the matrix that the construction rule yields, pair for pair and in its order. A pair is
marked exactly when one of the four signed combinations of `2^i mod 467` and `2^j mod 467` is 1 modulo 467: the early stop
of the scan discards no match. Counting a combination equal to 466 modulo 467, or to −466 unreduced, as a match too changes
no entry (conflict C4). The design-time check of R64 passes. The spec marks the table and
the early stop's harmlessness derived (R65, R66). -/
def Obligations.MatrixTableIsTheConstructedMatrix : Prop :=
  matrix = matrixByRule ∧ designCheck = true ∧
  ∀ i j : Nat, i < 233 → j < 233 →
    let u : Int := ((2 ^ i % 467 : Nat) : Int)
    let v : Int := ((2 ^ j % 467 : Nat) : Int)
    let combos := [u + v, u - v, -u + v, -u - v]
    ((i, j) ∈ matrix ↔ ∃ s ∈ combos, s % 467 = 1) ∧
    ((i, j) ∈ matrix ↔ ∃ s ∈ combos, s % 467 = 1 ∨ s % 467 = 466 ∨ s = -466)

/-- R66: 465 pairs, no pair twice; row 0 has column 1 alone and every other row exactly two; symmetric; the only diagonal pair
is (232, 232); 2 has order 466 modulo 467 and `2^233 mod 467 = 466`. -/
def Obligations.MatrixProperties : Prop :=
  matrix.length = 465 ∧ matrix.Nodup ∧ (matrix.filter fun ij => ij.1 == 0) = [(0, 1)] ∧
  (∀ i, 0 < i → i < 233 → (matrix.filter fun ij => ij.1 == i).length = 2) ∧
  (∀ i j : Nat, (i, j) ∈ matrix ↔ (j, i) ∈ matrix) ∧
  (∀ i : Nat, (i, i) ∈ matrix ↔ i = 232) ∧
  orderOf (2 : ZMod 467) = 466 ∧ 2 ^ 233 % 467 = 466

/-! ## Multiplication (R67 to R71) -/

/-- R67, R68: MUL of two defined registers completes with `c[i] = o[(i+1) mod 233]` in rd and nothing else changed. `o[r]` is
the bit of round r: with x and y the sources r times squared, `t[i]` the XOR of `x[232-j]` over the pairs (i, j) of Λ, it is
the XOR over i of `t[i] AND y[232-i]`. An undefined source stops it; its word is `0x80000000 | rd << 25 | rs1 << 22 | rs2 <<
19`; and `MUL(a, ONE) = a`, `MUL(a, ZERO) = ZERO`, `MUL(a, a) = SQR(a)`. -/
def Obligations.MulWritesRoundProduct : Prop :=
  (∀ (rd rs1 rs2 : Reg) (s : State),
    encode (.mul rd rs1 rs2) = 0x80000000#32 ||| (BitVec.ofNat 32 rd.val <<< 25) ||| (BitVec.ofNat 32 rs1.val <<< 22) |||
      (BitVec.ofNat 32 rs2.val <<< 19) ∧
    (s.isDefined rs1 = true → s.isDefined rs2 = true →
      let o := fun r : Nat =>
        let x := fieldSqr^[r] (s.reg rs1)
        let y := fieldSqr^[r] (s.reg rs2)
        let t := fun i : Nat => (matrix.filter fun ij => ij.1 == i && x.getLsbD (232 - ij.2)).length % 2 == 1
        ((List.range 233).filter fun i => t i && y.getLsbD (232 - i)).length % 2 == 1
      ∃ t, exec (.mul rd rs1 rs2) s = .next t ∧ WritesElement s t rd (fieldMul (s.reg rs1) (s.reg rs2)) ∧
        ∀ i, i < 233 → (fieldMul (s.reg rs1) (s.reg rs2)).getLsbD i = o ((i + 1) % 233)) ∧
    (s.isDefined rs1 = false → exec (.mul rd rs1 rs2) s = .fault (.uninit rs1)) ∧
    (s.isDefined rs1 = true → s.isDefined rs2 = false → exec (.mul rd rs1 rs2) s = .fault (.uninit rs2))) ∧
  ∀ a : Elem, fieldMul a ONE = a ∧ fieldMul a ZERO = ZERO ∧ fieldMul a a = fieldSqr a

/-- R70: with `A_k = a[232 - (k mod 233)]` and `B_k` likewise, `c[232 - k]` is the XOR over Λ of `A_{i+k} AND B_{j+k}`, both for
the product that MUL writes and for the round algorithm of R67 to R69. -/
def Obligations.ProductClosedForm : Prop :=
  ∀ (a b : Elem) (k : Nat), k ≤ 232 →
    let closed := (matrix.map fun ij =>
      a.getLsbD (232 - (ij.1 + k) % 233) && b.getLsbD (232 - (ij.2 + k) % 233)).foldl Bool.xor false
    (fieldMul a b).getLsbD (232 - k) = closed ∧ (fieldMulByRounds a b).getLsbD (232 - k) = closed

/-- R71: identity, commutativity, associativity, distributivity, zero, squares, `MUL(ONE, ONE) = ONE`, and every a that is not
ZERO has an inverse. -/
def Obligations.MultiplicationLaws : Prop :=
  (∀ a b c : Elem, fieldMul a ONE = a ∧ fieldMul a b = fieldMul b a ∧
    fieldMul (fieldMul a b) c = fieldMul a (fieldMul b c) ∧
    fieldMul a (fieldAdd b c) = fieldAdd (fieldMul a b) (fieldMul a c) ∧ fieldMul a ZERO = ZERO ∧
    fieldMul a a = fieldSqr a) ∧
  fieldMul ONE ONE = ONE ∧
  ∀ a : Elem, a ≠ ZERO → ∃ b, fieldMul a b = ONE

/-! ## Exponentiation (R72 to R74) -/

/-- R72: POW with `len` at most 233, of two defined registers, completes with the result of the rule's pseudocode in rd and nothing
else changed; both sources are read even when `len` is 0; its word is
`0x90000000 | rd << 25 | rs1 << 22 | rs2 << 19 | len << 11`; a word of opcode 0x9 with `imm8` above 233 is illegal. -/
def Obligations.PowWritesSquareAndMultiply : Prop :=
  (∀ (rd rs1 rs2 : Reg) (len : BitVec 8) (s : State), len.toNat ≤ 233 →
    encode (.pow rd rs1 rs2 len) = 0x90000000#32 ||| (BitVec.ofNat 32 rd.val <<< 25) ||| (BitVec.ofNat 32 rs1.val <<< 22) |||
      (BitVec.ofNat 32 rs2.val <<< 19) ||| (len.setWidth 32 <<< 11) ∧
    (s.isDefined rs1 = true → s.isDefined rs2 = true →
      let a := s.reg rs1
      let x := s.reg rs2
      let first := if 0 < len.toNat ∧ x.getLsbD (len.toNat - 1) = true then fieldMul ONE a else ONE
      let r := (List.range (len.toNat - 1)).reverse.foldl
        (fun r idx => if x.getLsbD idx then fieldMul (fieldSqr r) a else fieldSqr r) first
      ∃ t, exec (.pow rd rs1 rs2 len) s = .next t ∧ WritesElement s t rd r) ∧
    (s.isDefined rs1 = false → exec (.pow rd rs1 rs2 len) s = .fault (.uninit rs1)) ∧
    (s.isDefined rs1 = true → s.isDefined rs2 = false → exec (.pow rd rs1 rs2 len) s = .fault (.uninit rs2))) ∧
  ∀ w : Word, w.extractLsb' 28 4 = 0x9#4 → 233 < (w.extractLsb' 11 8).toNat → ∃ x, decode w = .error x

/-- R74: with `e` the number whose bits are the exponent's `len` coefficients, POW gives `a` multiplied by itself `e` times,
ONE for `e = 0`; for `a ≠ ZERO`, exponent 2^233 − 1 gives ONE and exponent 2^233 − 2 gives INV(a). -/
def Obligations.PowIsRepeatedMultiplication : Prop :=
  (∀ (a x : Elem) (len : Nat), len ≤ 233 → fieldPow a x len = selfProduct a (x.toNat % 2 ^ len)) ∧
  ∀ a : Elem, a ≠ ZERO → fieldPow a ONE 233 = ONE ∧ fieldPow a (fieldAdd ONE (basisElem 0)) 233 = fieldInv a

/-! ## Inversion (R75 to R78) -/

/-- R75: INV of a defined register that is not ZERO completes with the result of the chain in rd and nothing else changed; of
ZERO it sets DOM and changes nothing else; of an undefined one it stops; its word is `0xA0000000 | rd << 25 | rs1 << 22`;
`INV(ONE) = ONE`, and `INV(INV(a)) = a` for a that is not ZERO. -/
def Obligations.InvWritesInverseOrRaisesDomain : Prop :=
  (∀ (rd rs1 : Reg) (s : State),
    encode (.inv rd rs1) = 0xA0000000#32 ||| (BitVec.ofNat 32 rd.val <<< 25) ||| (BitVec.ofNat 32 rs1.val <<< 22) ∧
    (s.isDefined rs1 = true → s.reg rs1 ≠ ZERO →
      ∃ t, exec (.inv rd rs1) s = .next t ∧ WritesElement s t rd (fieldInv (s.reg rs1))) ∧
    (s.isDefined rs1 = true → s.reg rs1 = ZERO → exec (.inv rd rs1) s = .next { s with dom := true }) ∧
    (s.isDefined rs1 = false → exec (.inv rd rs1) s = .fault (.uninit rs1))) ∧
  fieldInv ONE = ONE ∧ ∀ a : Elem, a ≠ ZERO → fieldInv (fieldInv a) = a

/-- R76, with the values of `k` that R77 traces, 1, 3, 7, 14, 29, 58, 116, 232: a doubling step multiplies the k times squared
value by the value, a 1 bit of the chain constant squares once more and multiplies by the original `a`; then the final
squaring. -/
def Obligations.InversionChainTrace : Prop :=
  ∀ a : Elem,
    let double := fun (k : Nat) (beta : Elem) => fieldMul (fieldSqr^[k] beta) beta
    let extend := fun (beta : Elem) => fieldMul (fieldSqr beta) a
    let b3 := extend (double 1 a)
    let b7 := extend (double 3 b3)
    let b14 := double 7 b7
    let b29 := extend (double 14 b14)
    let b58 := double 29 b29
    let b116 := double 58 b58
    let b232 := double 116 b116
    fieldInv a = fieldSqr b232

/-- R78: INV is the field inverse. On the machine: from a defined register that is not ZERO, INV into rd and then MUL of the two
leaves ONE; and `INV(INV(a)) = a`, `INV(ONE) = ONE`, `INV(a) = POW(a, 2^233 − 2)`. -/
def Obligations.InversionIsTheFieldInverse : Prop :=
  (∀ (s : State) (rd rs1 q : Reg), rd ≠ rs1 → s.isDefined rs1 = true → s.reg rs1 ≠ ZERO →
    ∃ t u, exec (.inv rd rs1) s = .next t ∧ exec (.mul q rs1 rd) t = .next u ∧ u.reg q = ONE) ∧
  (∀ a : Elem, a ≠ ZERO → fieldMul a (fieldInv a) = ONE ∧ fieldInv (fieldInv a) = a ∧
    fieldInv a = fieldPow a (fieldAdd ONE (basisElem 0)) 233) ∧
  fieldInv ONE = ONE

/-- R74, R77, R96: POW costs `max(len − 1, 0)` squarings and one multiplication for each exponent bit set; INV costs 232
squarings and 10 multiplications. The spec marks these counts derived. -/
def Obligations.OperationCounts : Prop :=
  (∀ (x : Elem) (len : Nat),
    powCost x len = ⟨len - 1, ((List.range len).filter fun i => x.getLsbD i).length⟩) ∧
  invCost = ⟨232, 10⟩

/-! ## Status, errors and frames (R17 to R22, R34, R79, R81) -/

/-- R20: STATUS reads BUSY in bit 0, T in bit 1, ILL in bit 8, DOM in bit 9 and 0 in every reserved bit, all 0 at reset. T is
written by TRC alone. The error bits are sticky: a step from a state with ILL (or DOM) set leaves it set, unless it takes a
reset or completes a CLR. -/
def Obligations.StatusRegister : Prop :=
  (∀ s : State, s.status.getLsbD 0 = s.busy ∧ s.status.getLsbD 1 = s.t ∧ s.status.getLsbD 8 = s.ill ∧
    s.status.getLsbD 9 = s.dom ∧
    ∀ i, i ≠ 0 → i ≠ 1 → i ≠ 8 → i ≠ 9 → s.status.getLsbD i = false) ∧
  State.reset.status = 0#32 ∧
  (∀ (i : Instr) (s t : State), exec i s = .next t → t.t ≠ s.t → ∃ rs1, i = .trc rs1) ∧
  ∀ s t : State, step s = .next t →
    (∃ rest, s.host = .reset :: rest) ∨
    (∃ f, s.inFlight = some f ∧ decode f.word = .ok .clr) ∨
    (∃ w din rest, s.inFlight = none ∧ s.host = .command w din :: rest ∧ decode w = .ok .clr) ∨
    ((s.ill = true → t.ill = true) ∧ (s.dom = true → t.dom = true))

/-- R17: a command that completes writes no element register but its destination, and leaves the definedness of every other. -/
def Obligations.CommandWritesOnlyItsDestination : Prop :=
  ∀ (i : Instr) (s t : State), exec i s = .next t →
    ∀ r, destination i ≠ some r → t.reg r = s.reg r ∧ t.isDefined r = s.isDefined r

/-- The frame of the commands that write an element register, LD, ADD, SQR, ROT, MUL, POW and INV (R50, R53, R55, R57, R67,
R72, R75): T and DOUT are unchanged, DOM except where INV raises it, ILL except where a POW of illegal length does; and what is
in flight, sampled or still offered is unchanged. The block has no memory and no program counter (R24, R31). -/
def Obligations.ElementCommandsFrame : Prop :=
  ∀ (i : Instr) (s t : State), (destination i).isSome = true → i.wellFormed = true → exec i s = .next t →
    t.t = s.t ∧ t.dout = s.dout ∧ t.ill = s.ill ∧
    ((∀ rd rs1, i ≠ .inv rd rs1) → t.dom = s.dom) ∧
    t.inFlight = s.inFlight ∧ t.din = s.din ∧ t.host = s.host

/-- R19, R22: of the commands that complete, T is written by TRC alone, with the trace of its source, and DOUT by ST alone, with
the value of its source register. STATUS bit 1 reads T. At reset T is 0 and DOUT is ZERO. -/
def Obligations.OnlyTrcChangesTAndOnlyStChangesDout : Prop :=
  (∀ (i : Instr) (s t : State), exec i s = .next t →
    (t.t ≠ s.t → ∃ rs1, i = .trc rs1) ∧ (∀ rs1, i = .trc rs1 → t.t = fieldTrace (s.reg rs1)) ∧
    (t.dout ≠ s.dout → ∃ rs1, i = .st rs1) ∧ (∀ rs1, i = .st rs1 → t.dout = s.reg rs1)) ∧
  (∀ s : State, s.status.getLsbD 1 = s.t) ∧ State.reset.t = false ∧ State.reset.dout = ZERO

/-- R81: DOM becomes 1 only by INV of ZERO, which changes nothing else; INV of a defined register that holds ZERO does raise it,
and STATUS bit 9 then shows it. -/
def Obligations.OnlyInvOfZeroRaisesDomain : Prop :=
  (∀ (i : Instr) (s t : State), exec i s = .next t → s.dom = false → t.dom = true →
    ∃ rd rs1, i = .inv rd rs1 ∧ s.reg rs1 = ZERO ∧ t = { s with dom := true }) ∧
  ∀ (s : State) (rd rs1 : Reg), s.isDefined rs1 = true → s.reg rs1 = ZERO →
    ∃ t, exec (.inv rd rs1) s = .next t ∧ t = { s with dom := true } ∧ t.status.getLsbD 9 = true

/-- R18: once a register is written it stays defined until a reset. -/
def Obligations.DefinedUntilReset : Prop :=
  ∀ (s t : State) (r : Reg), step s = .next t → s.isDefined r = true →
    t.isDefined r = true ∨ ∃ rest, s.host = .reset :: rest

/-- R34: repeating a command whose destination is not among its sources changes nothing more. -/
def Obligations.RepeatingACommandIsIdempotent : Prop :=
  ∀ (i : Instr) (s t : State), i.wellFormed = true → (∀ rd, destination i = some rd → rd ∉ sources i) →
    exec i s = .next t → exec i t = .next t

/-! ## Reset and undefined registers (R18, R28, R90, R92) -/

/-- R28, R90: after reset Edef is all false, T = ILL = DOM = 0, DOUT = ZERO, BUSY = 0, and `status` reads 0. -/
def Obligations.ResetLeavesSpecValues : Prop :=
  (∀ r, State.reset.isDefined r = false) ∧ State.reset.t = false ∧ State.reset.ill = false ∧ State.reset.dom = false ∧
  State.reset.dout = ZERO ∧ State.reset.busy = false ∧ State.reset.status = 0#32

/-- R90: an edge with `rst_n` = 0 resets from any state, with a command in flight or not, and whatever is offered: Edef all
false, T = ILL = DOM = 0, DOUT = ZERO, BUSY = 0, the command in flight abandoned and none accepted; `cmd_ready` is 0 during
it and 1 at the next edge with `rst_n` = 1. So does a reset that a step takes. -/
def Obligations.ResetOverridesEverything : Prop :=
  (∀ (tm : Config.Timing) (s : State) (p : Pins), p.rstN = false →
    s.cmdReady p.rstN = false ∧
    ∃ t, edge tm p s = .next t ∧ (∀ r, t.isDefined r = false) ∧ t.t = false ∧ t.ill = false ∧ t.dom = false ∧
      t.dout = ZERO ∧ t.busy = false ∧ t.inFlight = none ∧ t.cmdReady true = true) ∧
  (∀ (s : State) (rest : List HostAction), s.host = .reset :: rest →
    ∃ t, step s = .next t ∧ (∀ r, t.isDefined r = false) ∧ t.t = false ∧ t.ill = false ∧ t.dom = false ∧ t.dout = ZERO ∧
      t.busy = false ∧ t.inFlight = none ∧ t.host = rest)

/-- R18: no step depends on the stored value of an undefined register, so the value the model stores at reset (log 1) is never
relied on: states that agree up to such values have outcomes that do. -/
def Obligations.UndefinedValuesNeverMatter : Prop :=
  ∀ s t : State, SameButUndefined s t → SameOutcome (step s) (step t)

/-- R92: a host's program that passes `bootChecked` never meets the model fault, from any idle state in which what the check
starts from is so; from reset too, where it starts from no knowledge. The check counts a register as written by INV only when
the value inverted is known not to be ZERO, since INV of ZERO writes nothing. -/
def Obligations.BootCheckedProgramsNeverStop : Prop :=
  ∀ (s : State) (d : Vector Known 8), s.inFlight = none → (∀ r : Reg, (d.get r).Holds s r) →
    bootChecked d s.host = true → NeverStops s

/-- R92, step by step: an idle state whose host's program passes the check answers a next state, and that is such a state
again. -/
def Obligations.EveryStepKeepsBootReady : Prop :=
  ∀ s : State, s.BootReady → ∃ t, step s = .next t ∧ t.BootReady

/-! ## The clock level (R21, R29, R36, R90, R93, R94, R97) -/

/-- R97: for every LAT and every pace, an idle block offered a legal command whose sources are defined accepts it, is busy with
nothing else changed for fewer than LAT edges, and at the edge LAT after acceptance is idle again with every register, T, ILL,
DOM and DOUT what one atomic `exec` gives; offered an illegal word, the same with ILL set. Only LD samples `din`, and its LAT
alone may depend on it. Whatever the host drives meanwhile, short of reset, has no effect. A legal command with an undefined
source is the model fault at its accepting edge. The model's own choices in it: the accepting edge as the place of the
fault (log 16), ZERO for an operand that is not read, an illegal word's among them (log 9), and the field that keeps the
sampled `din` (log 4). -/
def Obligations.EdgesRefineTheAtomicStep : Prop :=
  ∀ (tm : Config.Timing) (s : State) (p : Pins) (ps : List Pins),
    s.inFlight = none → p.rstN = true → p.cmdValid = true → (∀ q ∈ ps, q.rstN = true) →
    (∀ rd, decode p.cmd = .ok (.ld rd) →
      let lat := tm.lat p.cmd p.din ZERO
      1 ≤ lat ∧
      (ps.length < lat → ∃ f, edges tm (p :: ps) s = .next { s with din := p.din, inFlight := some f }) ∧
      (ps.length = lat → edges tm (p :: ps) s = exec (.ld rd) { s with din := p.din })) ∧
    (∀ i, decode p.cmd = .ok i → (∀ rd, i ≠ .ld rd) → SourcesDefined i s →
      let lat := tm.lat p.cmd (latchedOperands i s).1 (latchedOperands i s).2
      1 ≤ lat ∧
      (ps.length < lat → ∃ f, edges tm (p :: ps) s = .next { s with inFlight := some f }) ∧
      (ps.length = lat → edges tm (p :: ps) s = exec i s)) ∧
    (∀ x, decode p.cmd = .error x →
      let lat := tm.lat p.cmd ZERO ZERO
      1 ≤ lat ∧
      (ps.length < lat → ∃ f, edges tm (p :: ps) s = .next { s with inFlight := some f }) ∧
      (ps.length = lat → edges tm (p :: ps) s = .next { s with ill := true })) ∧
    (∀ i r, decode p.cmd = .ok i → (sources i).find? (fun r => !s.isDefined r) = some r →
      edge tm p s = .fault (.uninit r))

/-- R23, R29: only LD samples `din`. A step that accepts another word, and an edge at which an idle block is offered another
word, come out the same whatever stands on `din`; and outside reset a busy block's edge comes out the same whatever the host
drives. -/
def Obligations.DinMattersToLdAlone : Prop :=
  (∀ (s t : State) (w : Word) (x y : Elem) (rest : List HostAction), (∀ rd, decode w ≠ .ok (.ld rd)) →
    s.inFlight = none → s.host = .command w x :: rest → t = { s with host := .command w y :: rest } → step s = step t) ∧
  (∀ (tm : Config.Timing) (s : State) (p : Pins) (x : Elem), (∀ rd, decode p.cmd ≠ .ok (.ld rd)) → s.inFlight = none →
    edge tm p s = edge tm { p with din := x } s) ∧
  (∀ (tm : Config.Timing) (s : State) (p q : Pins), s.inFlight.isSome = true → p.rstN = true → q.rstN = true →
    edge tm p s = edge tm q s)

/-- R21, R29, R94: an edge of a busy block that has more than one edge left, outside reset, accepts nothing and changes no element
register, T, DOUT, ILL or DOM, and the block stays busy with one edge fewer left. -/
def Obligations.BusyEdgeChangesNothingVisible : Prop :=
  ∀ (tm : Config.Timing) (s : State) (p : Pins) (f : InFlight), p.rstN = true → s.inFlight = some f → 1 < f.left →
    ∃ t g, edge tm p s = .next t ∧ t.inFlight = some g ∧ g.word = f.word ∧ g.left = f.left - 1 ∧
      t = { s with inFlight := some g } ∧ t.cmdReady true = false

/-- R23, R29, R93: outside reset an idle block is ready; with `cmd_valid` 0 an edge accepts nothing and changes nothing; a busy or
reset block is not ready. -/
def Obligations.ReadyExactlyWhenIdle : Prop :=
  (∀ s : State, s.cmdReady true = !s.busy ∧ s.cmdReady false = false) ∧
  (∀ (tm : Config.Timing) (s : State) (p : Pins), s.inFlight = none → p.rstN = true → p.cmdValid = false →
    edge tm p s = .next s)

/-! ## Invariants (R21, R27, R30) -/

/-- At reset nothing is in flight. -/
def Obligations.ResetIsSound : Prop := State.reset.Sound

/-- R27, R30: every edge keeps the invariant: what is in flight holds the values of its defined source registers, its engine is
rounds after its start on them, and an edge is left. -/
def Obligations.EdgeKeepsSound : Prop :=
  ∀ (tm : Config.Timing) (p : Pins) (s t : State), s.Sound → edge tm p s = .next t → t.Sound

/-- R28: every step keeps the invariant of the command in flight, and after a step BUSY is 0: "At transaction level, BUSY is 0
between commands". -/
def Obligations.StepKeepsSound : Prop :=
  ∀ s t : State, s.Sound → step s = .next t → t.Sound ∧ t.busy = false

/-- R21, R27, R36: in a sound state the command in flight completes as its atomic meaning would: the completing step is `exec` of
the instruction, with BUSY back at 0. -/
def Obligations.SoundCommandInFlightCompletesAsExec : Prop :=
  ∀ (s : State) (f : InFlight) (i : Instr), s.Sound → s.inFlight = some f → decode f.word = .ok i →
    (∀ rest, s.host ≠ .reset :: rest) → ∃ t, exec i s = .next t ∧ step s = .next { t with inFlight := none }

/-! ## Strings and assembler text (R15, R16, R46) -/

/-- R15: serialization writes exactly 233 characters, character j being coefficient 232 − j, and construction is its inverse. -/
def Obligations.SerializationRoundTrip : Prop :=
  ∀ a : Elem, (stringOfElem a).length = 233 ∧
    (∀ j, j < 233 → (stringOfElem a)[j]? = some (if a.getLsbD (232 - j) then '1' else '0')) ∧
    elemOfString (stringOfElem a) = .ok a

/-- R16: a binary string of L ≤ 233 characters sets `a[i]` from character `L − 1 − i` and zero above; a longer string, or one with
another character, is rejected. -/
def Obligations.ConstructionFromString : Prop :=
  ∀ cs : List Char,
    (cs.length ≤ 233 → (∀ c ∈ cs, c = '0' ∨ c = '1') → ∃ a, elemOfString cs = .ok a ∧
      (∀ i, i < cs.length → a.getLsbD i = decide (cs[cs.length - 1 - i]? = some '1')) ∧
      ∀ i, cs.length ≤ i → a.getLsbD i = false) ∧
    (233 < cs.length ∨ (∃ c ∈ cs, c ≠ '0' ∧ c ≠ '1') → ∃ x, elemOfString cs = .error x)

/-- R46: the line of every well-formed command, as the rule writes it, assembles to that command. -/
def Obligations.AssemblerReadsEveryCommandLine : Prop :=
  ∀ i : Instr, i.wellFormed = true → assembleText (instrText i) = .line (.instr i)
end

