-- ==== Sys2Proof/Laws/Arith.lean ====
section
/-! SUPPORT. Coefficient by coefficient, what the units compute (R53, R55, R57, R59, R69). -/
namespace Sys2Proof.Machine

/-- R53 by coefficients. -/
@[simp] theorem getLsbD_fieldAdd (a b : Elem) (i : Nat) :
    (fieldAdd a b).getLsbD i = (a.getLsbD i ^^ b.getLsbD i) := by
  simp [fieldAdd]

/-- R55 by coefficients: `c[i] = a[(i+1) mod 233]`. -/
theorem getLsbD_fieldSqr (a : Elem) {i : Nat} (h : i < 233) :
    (fieldSqr a).getLsbD i = a.getLsbD ((i + 1) % 233) := by
  rw [fieldSqr, BitVec.getLsbD_rotateRight, Bool.cond_decide]
  split
  · congr 1
    omega
  · have : i = 232 := by omega
    subst this
    simp

/-- R57 by coefficients: `c[i] = a[(i - s) mod 233]`. -/
theorem getLsbD_fieldRot (a : Elem) (k : Nat) {i : Nat} (h : i < 233) :
    (fieldRot a k).getLsbD i = a.getLsbD ((i + (233 - k % 233)) % 233) := by
  have hk : k % 233 < 233 := Nat.mod_lt _ (by decide)
  rw [fieldRot, BitVec.getLsbD_rotateLeft, Nat.mod_mod, Bool.cond_decide]
  split
  · congr 1
    omega
  · simp only [h, decide_true, Bool.true_and]
    congr 1
    omega

/-- R69 by coefficients. -/
theorem getLsbD_assembleProduct (o : Elem) {i : Nat} (h : i < 233) :
    (assembleProduct o).getLsbD i = o.getLsbD ((i + 1) % 233) :=
  getLsbD_fieldSqr o h

/-- Two elements are equal when all 233 coefficients are. -/
theorem elem_ext {a b : Elem} (h : ∀ i, i < 233 → a.getLsbD i = b.getLsbD i) : a = b :=
  BitVec.eq_of_getLsbD_eq h

section xorBelow
variable {f g : Nat → Bool}

/-- The XOR over a set depends on the values in the set alone. -/
theorem xorBelow_congr : ∀ {n : Nat}, (∀ i, i < n → f i = g i) → xorBelow f n = xorBelow g n
  | 0, _ => rfl
  | n + 1, h => by
    rw [xorBelow, xorBelow, h n (by omega), xorBelow_congr fun i hi => h i (by omega)]

/-- The XOR of nothing but zeros. -/
@[simp] theorem xorBelow_false (n : Nat) : xorBelow (fun _ => false) n = false := by
  induction n with
  | zero => rfl
  | succ n ih => rw [xorBelow, ih]; rfl

/-- The XOR of sums is the sum of the XORs. -/
theorem xorBelow_xor (n : Nat) :
    xorBelow (fun i => f i ^^ g i) n = (xorBelow f n ^^ xorBelow g n) := by
  induction n with
  | zero => rfl
  | succ n ih =>
    rw [xorBelow, xorBelow, xorBelow, ih]
    cases xorBelow f n <;> cases xorBelow g n <;> cases f n <;> cases g n <;> rfl

/-- The XOR over a set, split at a point. -/
theorem xorBelow_add (m n : Nat) :
    xorBelow f (m + n) = (xorBelow f m ^^ xorBelow (fun i => f (m + i)) n) := by
  induction n with
  | zero => simp [xorBelow]
  | succ n ih => rw [← Nat.add_assoc, xorBelow, ih, xorBelow, Bool.xor_assoc]

/-- The XOR over 0..n-1 does not change when the indices are rotated. -/
theorem xorBelow_rotate {n k : Nat} (hk : k ≤ n) :
    xorBelow (fun i => f ((i + k) % n)) n = xorBelow f n := by
  obtain ⟨d, rfl⟩ := Nat.exists_eq_add_of_le hk
  have h1 : xorBelow (fun i => f ((i + k) % (k + d))) (d + k) =
      (xorBelow (fun i => f (k + i)) d ^^ xorBelow f k) := by
    rw [xorBelow_add]
    congr 1
    · refine xorBelow_congr fun i hi => ?_
      rw [Nat.mod_eq_of_lt (by omega), Nat.add_comm]
    · refine xorBelow_congr fun i hi => ?_
      have : d + i + k = i + (k + d) := by omega
      rw [this, Nat.add_mod_right, Nat.mod_eq_of_lt (by omega)]
  rw [Nat.add_comm d k] at h1
  rw [h1, xorBelow_add, Bool.xor_comm]

/-- The XOR over 0..n-1 is the parity of the number of ones. -/
theorem xorBelow_eq_parity (n : Nat) : xorBelow f n = (((List.range n).filter f).length % 2 == 1) := by
  induction n with
  | zero => rfl
  | succ n ih =>
    rw [xorBelow, ih, List.range_succ, List.filter_append, List.length_append]
    cases h : f n
    · simp [h]
    · rcases Nat.mod_two_eq_zero_or_one (List.filter f (List.range n)).length with h2 | h2 <;>
        simp [h, h2, Nat.add_mod]

end xorBelow

/-- A fold that adds up elements, by coefficients. -/
theorem getLsbD_foldl_xor {α : Type} (l : List α) (f : α → Elem) (c : Elem) (m : Nat) :
    (l.foldl (fun c x => c ^^^ f x) c).getLsbD m =
      l.foldl (fun (t : Bool) x => t ^^ (f x).getLsbD m) (c.getLsbD m) := by
  induction l generalizing c with
  | nil => rfl
  | cons x l ih => rw [List.foldl_cons, List.foldl_cons, ih, BitVec.getLsbD_xor]

end Sys2Proof.Machine
end

