-- ==== Sys2Proof/Laws/Decode.lean ====
section
/-! SUPPORT. The fields of a 32-bit word (R39), taken apart and put together, and what a mask of whole fields keeps (R43). -/
namespace Sys2Proof

/-- A word of its six fields, the reserved bits among them (R39). -/
def ofFields (op : BitVec 4) (rd rs1 rs2 : BitVec 3) (imm8 : BitVec 8) (res : BitVec 11) : Word :=
  op ++ rd ++ rs1 ++ rs2 ++ imm8 ++ res

section
variable (op op' : BitVec 4) (rd rs1 rs2 rd' rs1' rs2' : BitVec 3) (imm8 imm8' : BitVec 8) (res res' : BitVec 11)

theorem formatC_eq_ofFields : formatC op rd rs1 rs2 imm8 = ofFields op rd rs1 rs2 imm8 0#11 := rfl

/-- The word's bits, field by field. -/
theorem getLsbD_ofFields (i : Nat) :
    (ofFields op rd rs1 rs2 imm8 res).getLsbD i =
      if i < 11 then res.getLsbD i else if i < 19 then imm8.getLsbD (i - 11) else if i < 22 then rs2.getLsbD (i - 19)
      else if i < 25 then rs1.getLsbD (i - 22) else if i < 28 then rd.getLsbD (i - 25) else op.getLsbD (i - 28) := by
  simp only [ofFields, BitVec.getLsbD_append]
  repeat' split
  all_goals first | rfl | omega

@[simp] theorem op_ofFields : (ofFields op rd rs1 rs2 imm8 res).extractLsb' 28 4 = op := by
  refine BitVec.eq_of_getLsbD_eq fun i hi => ?_
  simp only [BitVec.getLsbD_extractLsb', getLsbD_ofFields, hi, decide_true, Bool.true_and]
  repeat' split
  all_goals first | omega | (congr 1; omega)

@[simp] theorem rd_ofFields : (ofFields op rd rs1 rs2 imm8 res).extractLsb' 25 3 = rd := by
  refine BitVec.eq_of_getLsbD_eq fun i hi => ?_
  simp only [BitVec.getLsbD_extractLsb', getLsbD_ofFields, hi, decide_true, Bool.true_and]
  repeat' split
  all_goals first | omega | (congr 1; omega)

@[simp] theorem rs1_ofFields : (ofFields op rd rs1 rs2 imm8 res).extractLsb' 22 3 = rs1 := by
  refine BitVec.eq_of_getLsbD_eq fun i hi => ?_
  simp only [BitVec.getLsbD_extractLsb', getLsbD_ofFields, hi, decide_true, Bool.true_and]
  repeat' split
  all_goals first | omega | (congr 1; omega)

@[simp] theorem rs2_ofFields : (ofFields op rd rs1 rs2 imm8 res).extractLsb' 19 3 = rs2 := by
  refine BitVec.eq_of_getLsbD_eq fun i hi => ?_
  simp only [BitVec.getLsbD_extractLsb', getLsbD_ofFields, hi, decide_true, Bool.true_and]
  repeat' split
  all_goals first | omega | (congr 1; omega)

@[simp] theorem imm8_ofFields : (ofFields op rd rs1 rs2 imm8 res).extractLsb' 11 8 = imm8 := by
  refine BitVec.eq_of_getLsbD_eq fun i hi => ?_
  simp only [BitVec.getLsbD_extractLsb', getLsbD_ofFields, hi, decide_true, Bool.true_and]
  repeat' split
  all_goals first | omega | (congr 1; omega)

@[simp] theorem res_ofFields : (ofFields op rd rs1 rs2 imm8 res).extractLsb' 0 11 = res := by
  refine BitVec.eq_of_getLsbD_eq fun i hi => ?_
  simp only [BitVec.getLsbD_extractLsb', getLsbD_ofFields, hi, decide_true, Bool.true_and]
  repeat' split
  all_goals first | omega | (congr 1; omega)

/-- Every word is the word of its fields. -/
theorem ofFields_of_word (w : Word) :
    ofFields (w.extractLsb' 28 4) (w.extractLsb' 25 3) (w.extractLsb' 22 3) (w.extractLsb' 19 3) (w.extractLsb' 11 8)
      (w.extractLsb' 0 11) = w := by
  refine BitVec.eq_of_getLsbD_eq fun i hi => ?_
  simp only [getLsbD_ofFields, BitVec.getLsbD_extractLsb']
  repeat' split
  all_goals simp_all <;> (intros; omega)

/-- Fields are masked one by one. -/
theorem ofFields_and : ofFields op rd rs1 rs2 imm8 res &&& ofFields op' rd' rs1' rs2' imm8' res' =
    ofFields (op &&& op') (rd &&& rd') (rs1 &&& rs1') (rs2 &&& rs2') (imm8 &&& imm8') (res &&& res') := by
  refine BitVec.eq_of_getLsbD_eq fun i _ => ?_
  simp only [BitVec.getLsbD_and, getLsbD_ofFields]
  repeat' split
  all_goals rfl

/-- Words are equal exactly when all their fields are. -/
theorem ofFields_inj : ofFields op rd rs1 rs2 imm8 res = ofFields op' rd' rs1' rs2' imm8' res' ↔
    op = op' ∧ rd = rd' ∧ rs1 = rs1' ∧ rs2 = rs2' ∧ imm8 = imm8' ∧ res = res' := by
  constructor
  · intro h
    exact ⟨by simpa using congrArg (BitVec.extractLsb' 28 4) h, by simpa using congrArg (BitVec.extractLsb' 25 3) h,
      by simpa using congrArg (BitVec.extractLsb' 22 3) h, by simpa using congrArg (BitVec.extractLsb' 19 3) h,
      by simpa using congrArg (BitVec.extractLsb' 11 8) h, by simpa using congrArg (BitVec.extractLsb' 0 11) h⟩
  · rintro ⟨rfl, rfl, rfl, rfl, rfl, rfl⟩
    rfl

end

/-- A register's field reads back as the register. -/
@[simp] theorem regBits_toNat (r : Reg) : (regBits r).toNat = r.val := by
  simp [regBits]

/-- A register read from a field writes that field. -/
@[simp] theorem regBits_regField (w : Word) (lo : Nat) : regBits (regField w lo) = w.extractLsb' lo 3 := by
  exact BitVec.eq_of_toNat_eq (by simp [regBits, regField])

end Sys2Proof
end

