-- ==== Sys2Proof/Laws/Multiply.lean ====
section
/-! SUPPORT. The product by coefficients, and the round algorithm of R67 to R69 against the closed form of R70. -/

set_option Elab.async false
namespace Sys2Proof.Machine

/-- The XOR of a condition over the members of a list. -/
def xorList {α : Type} (l : List α) (f : α → Bool) : Bool := l.foldl (fun t x => t ^^ f x) false

section xorList
variable {α β : Type} {l : List α} {f g : α → Bool}

theorem foldl_xor_eq (l : List α) (f : α → Bool) (t : Bool) :
    l.foldl (fun t x => t ^^ f x) t = (t ^^ xorList l f) := by
  induction l generalizing t with
  | nil => simp [xorList]
  | cons x l ih =>
    rw [xorList, List.foldl_cons, List.foldl_cons, ih, ih (false ^^ f x), Bool.false_xor, Bool.xor_assoc]

@[simp] theorem xorList_nil : xorList ([] : List α) f = false := rfl

@[simp] theorem xorList_cons (x : α) : xorList (x :: l) f = (f x ^^ xorList l f) := by
  rw [xorList, List.foldl_cons, foldl_xor_eq, Bool.false_xor]

theorem xorList_congr (h : ∀ x ∈ l, f x = g x) : xorList l f = xorList l g := by
  induction l with
  | nil => rfl
  | cons x l ih => simp [h x (by simp), ih fun y hy => h y (by simp [hy])]

theorem xorList_map (m : β → α) (l : List β) : xorList (l.map m) f = xorList l fun x => f (m x) := by
  induction l with
  | nil => rfl
  | cons x l ih => simp [ih]

theorem xorList_perm {l' : List α} (h : l.Perm l') : xorList l f = xorList l' f := by
  induction h with
  | nil => rfl
  | cons x _ ih => simp [ih]
  | swap x y l =>
    simp only [xorList_cons]
    cases f x <;> cases f y <;> cases xorList l f <;> rfl
  | trans _ _ h1 h2 => rw [h1, h2]

theorem xorList_xor (l : List α) : xorList l (fun x => f x ^^ g x) = (xorList l f ^^ xorList l g) := by
  induction l with
  | nil => rfl
  | cons x l ih =>
    simp only [xorList_cons, ih]
    cases f x <;> cases g x <;> cases xorList l f <;> cases xorList l g <;> rfl

/-- A doubled condition cancels. -/
theorem xorList_false (h : ∀ x ∈ l, f x = false) : xorList l f = false := by
  induction l with
  | nil => rfl
  | cons x l ih => simp [h x (by simp), ih fun y hy => h y (by simp [hy])]

end xorList

/-- Every pair of Λ names a row and a column. -/
theorem matrix_bounds : ∀ ij ∈ matrix, ij.1 < 233 ∧ ij.2 < 233 := by
  decide +kernel

/-- R66: Λ is symmetric, as a list up to order. -/
theorem matrix_swap_perm : (matrix.map Prod.swap).Perm matrix := by
  rw [← List.isPerm_iff]
  decide +kernel

/-- R70 by coefficients: `c[m]` is the XOR over Λ of `a[m - i] AND b[m - j]`, indices modulo 233. -/
theorem getLsbD_fieldMul (a b : Elem) {m : Nat} (h : m < 233) :
    (fieldMul a b).getLsbD m = xorList matrix fun ij =>
      a.getLsbD ((m + (233 - ij.1)) % 233) && b.getLsbD ((m + (233 - ij.2)) % 233) := by
  rw [fieldMul, getLsbD_foldl_xor, foldl_xor_eq, BitVec.getLsbD_zero, Bool.false_xor]
  refine xorList_congr fun ij hij => ?_
  obtain ⟨h1, h2⟩ := matrix_bounds ij hij
  rw [BitVec.getLsbD_and, getLsbD_fieldRot a _ h, getLsbD_fieldRot b _ h, Nat.mod_eq_of_lt h1,
    Nat.mod_eq_of_lt h2]

/-- Squaring `n` times, by coefficients. -/
theorem getLsbD_sqr_iterate (n : Nat) (a : Elem) {i : Nat} (h : i < 233) :
    (fieldSqr^[n] a).getLsbD i = a.getLsbD ((i + n) % 233) := by
  induction n generalizing i with
  | zero => simp [Nat.mod_eq_of_lt h]
  | succ n ih =>
    rw [Function.iterate_succ', Function.comp, getLsbD_fieldSqr _ h, ih (Nat.mod_lt _ (by decide))]
    congr 1
    omega

/-- A matrix product met with a vector, as one XOR over the pairs (R68 steps 1 to 3). -/
theorem xorBelow_foldl_and (l : List (Nat × Nat)) (p : Nat × Nat → Bool) (z : Nat → Bool) (t : Elem)
    (hl : ∀ ij ∈ l, ij.1 < 233) :
    xorBelow (fun n => (l.foldl (fun t ij => if p ij then t ^^^ BitVec.twoPow 233 ij.1 else t) t).getLsbD n && z n) 233 =
      (xorBelow (fun n => t.getLsbD n && z n) 233 ^^ xorList l fun ij => p ij && z ij.1) := by
  induction l generalizing t with
  | nil => simp
  | cons x l ih =>
    have hx : x.1 < 233 := hl x (by simp)
    rw [List.foldl_cons, ih _ fun ij hij => hl ij (by simp [hij]), xorList_cons, ← Bool.xor_assoc]
    refine congrArg (fun u => u ^^ xorList l fun ij => p ij && z ij.1) ?_
    split
    · rename_i hp
      have hone : ∀ n, xorBelow (fun i => decide (i = x.1) && z i) n = (decide (x.1 < n) && z x.1) := by
        intro n
        induction n with
        | zero => simp [xorBelow]
        | succ n ihn =>
          rw [xorBelow, ihn]
          rcases Nat.lt_trichotomy x.1 n with h | h | h
          · have h1 : n ≠ x.1 := by omega
            have h2 : x.1 < n + 1 := by omega
            simp [h, h1, h2]
          · simp [h]
          · have h1 : n ≠ x.1 := by omega
            have h2 : ¬ x.1 < n + 1 := by omega
            have h3 : ¬ x.1 < n := by omega
            simp [h1, h2, h3]
      rw [hp, Bool.true_and]
      have h2 := hone 233
      simp only [hx, decide_true, Bool.true_and] at h2
      rw [← h2, ← xorBelow_xor]
      refine xorBelow_congr fun i hi => ?_
      rw [BitVec.getLsbD_xor, BitVec.getLsbD_twoPow, Bool.and_xor_distrib_right]
      simp [hx, eq_comm]
    · rename_i hp
      simp [hp]

/-- One round's bit as one XOR over Λ (R68). -/
theorem roundBit_eq (x y : Elem) :
    roundBit x y = xorList matrix fun ij => x.getLsbD (232 - ij.2) && y.getLsbD (232 - ij.1) := by
  rw [roundBit, innerProduct, matrixProduct,
    xorBelow_foldl_and matrix (fun ij => x.getLsbD (232 - ij.2)) _ _ fun ij hij => (matrix_bounds ij hij).1]
  have h0 : xorBelow (fun n => ZERO.getLsbD n && y.reverse.getLsbD n) 233 = false := by
    rw [xorBelow_congr (g := fun _ => false) fun i _ => by simp, xorBelow_false]
  rw [h0, Bool.false_xor]
  refine xorList_congr fun ij hij => ?_
  obtain ⟨h1, _⟩ := matrix_bounds ij hij
  rw [BitVec.getLsbD_reverse, BitVec.getMsbD_eq_getLsbD]
  simp [h1]

@[simp] theorem getLsbD_setCoeff (o : Elem) (r : Nat) (bit : Bool) {i : Nat} (h : i < 233) :
    (setCoeff o r bit).getLsbD i = if i = r then bit else o.getLsbD i := by
  by_cases hr : i = r
  · subst hr
    cases bit <;> simp [setCoeff, h]
  · cases bit <;> simp [setCoeff, hr, h]

/-- The engine after `n` rounds (R68). -/
theorem mulRound_iterate (a b : Elem) {n : Nat} (hn : n ≤ 233) :
    let w := mulRound^[n] (mulStart a b)
    w.x = fieldSqr^[n] a ∧ w.y = fieldSqr^[n] b ∧ w.round = n ∧
      ∀ r, r < n → w.o.getLsbD r = roundBit (fieldSqr^[r] a) (fieldSqr^[r] b) := by
  induction n with
  | zero => simp [mulStart]
  | succ n ih =>
    obtain ⟨hx, hy, hr, ho⟩ := ih (by omega)
    rw [Function.iterate_succ', Function.comp]
    generalize mulRound^[n] (mulStart a b) = w at hx hy hr ho ⊢
    have hlt : w.round < 233 := by omega
    rw [mulRound, if_pos hlt]
    refine ⟨by rw [hx, Function.iterate_succ', Function.comp], by rw [hy, Function.iterate_succ', Function.comp],
      by rw [hr], fun r hrn => ?_⟩
    simp only [hx, hy, hr]
    rw [getLsbD_setCoeff _ _ _ (by omega)]
    split
    · rename_i h
      rw [h]
    · exact ho r (by omega)

/-- The round algorithm of R67 to R69 computes the closed form of R70. -/
theorem fieldMulByRounds_eq (a b : Elem) : fieldMulByRounds a b = fieldMul a b := by
  refine elem_ext fun m hm => ?_
  have hr : (m + 1) % 233 < 233 := Nat.mod_lt _ (by decide)
  rw [fieldMulByRounds, getLsbD_assembleProduct _ hm,
    (mulRound_iterate a b (Nat.le_refl 233)).2.2.2 _ hr, roundBit_eq, getLsbD_fieldMul a b hm,
    ← xorList_perm matrix_swap_perm, xorList_map]
  refine xorList_congr fun ij hij => ?_
  obtain ⟨h1, h2⟩ := matrix_bounds ij hij
  rw [getLsbD_sqr_iterate _ _ (by simp; omega), getLsbD_sqr_iterate _ _ (by simp; omega)]
  simp only [Prod.fst_swap, Prod.snd_swap]
  congr 2 <;> omega

end Sys2Proof.Machine
end

