-- ==== Sys2Proof/Laws/State.lean ====
section
/-! SUPPORT. One lemma per field per update of the state, and the register file's read-after-write laws. -/
namespace Sys2Proof.Machine
variable (s : State) (r rd : Reg) (v : Elem) (x : ErrorKind) (b : Bool) (rest : List HostAction)

@[simp] theorem writeReg_e : (s.writeReg rd v).e = s.e.set rd v := rfl
@[simp] theorem writeReg_edef : (s.writeReg rd v).edef = s.edef.set rd true := rfl
@[simp] theorem writeReg_t : (s.writeReg rd v).t = s.t := rfl
@[simp] theorem writeReg_ill : (s.writeReg rd v).ill = s.ill := rfl
@[simp] theorem writeReg_dom : (s.writeReg rd v).dom = s.dom := rfl
@[simp] theorem writeReg_dout : (s.writeReg rd v).dout = s.dout := rfl
@[simp] theorem writeReg_inFlight : (s.writeReg rd v).inFlight = s.inFlight := rfl
@[simp] theorem writeReg_din : (s.writeReg rd v).din = s.din := rfl
@[simp] theorem writeReg_host : (s.writeReg rd v).host = s.host := rfl

@[simp] theorem raise_illegal_ill : (s.raise .illegal).ill = true := rfl
@[simp] theorem raise_domain_ill : (s.raise .domain).ill = s.ill := rfl
@[simp] theorem raise_illegal_dom : (s.raise .illegal).dom = s.dom := rfl
@[simp] theorem raise_domain_dom : (s.raise .domain).dom = true := rfl
@[simp] theorem raise_e : (s.raise x).e = s.e := by cases x <;> rfl
@[simp] theorem raise_edef : (s.raise x).edef = s.edef := by cases x <;> rfl
@[simp] theorem raise_t : (s.raise x).t = s.t := by cases x <;> rfl
@[simp] theorem raise_dout : (s.raise x).dout = s.dout := by cases x <;> rfl
@[simp] theorem raise_inFlight : (s.raise x).inFlight = s.inFlight := by cases x <;> rfl
@[simp] theorem raise_din : (s.raise x).din = s.din := by cases x <;> rfl
@[simp] theorem raise_host : (s.raise x).host = s.host := by cases x <;> rfl

@[simp] theorem clearErrors_ill : s.clearErrors.ill = false := rfl
@[simp] theorem clearErrors_dom : s.clearErrors.dom = false := rfl
@[simp] theorem clearErrors_e : s.clearErrors.e = s.e := rfl
@[simp] theorem clearErrors_edef : s.clearErrors.edef = s.edef := rfl
@[simp] theorem clearErrors_t : s.clearErrors.t = s.t := rfl
@[simp] theorem clearErrors_dout : s.clearErrors.dout = s.dout := rfl
@[simp] theorem clearErrors_inFlight : s.clearErrors.inFlight = s.inFlight := rfl
@[simp] theorem clearErrors_din : s.clearErrors.din = s.din := rfl
@[simp] theorem clearErrors_host : s.clearErrors.host = s.host := rfl

@[simp] theorem commit_nothing : s.commit .nothing = s := rfl
@[simp] theorem commit_element : s.commit (.element rd v) = s.writeReg rd v := rfl
@[simp] theorem commit_trace : s.commit (.trace b) = { s with t := b } := rfl
@[simp] theorem commit_output : s.commit (.output v) = { s with dout := v } := rfl
@[simp] theorem commit_clear : s.commit .clear = s.clearErrors := rfl
@[simp] theorem commit_error : s.commit (.error x) = s.raise x := rfl
@[simp] theorem commit_inFlight (eff : Effect) : (s.commit eff).inFlight = s.inFlight := by
  cases eff <;> simp
@[simp] theorem commit_din (eff : Effect) : (s.commit eff).din = s.din := by cases eff <;> simp
@[simp] theorem commit_host (eff : Effect) : (s.commit eff).host = s.host := by cases eff <;> simp

@[simp] theorem resetEdge_e : s.resetEdge.e = State.reset.e := rfl
@[simp] theorem resetEdge_edef : s.resetEdge.edef = State.reset.edef := rfl
@[simp] theorem resetEdge_t : s.resetEdge.t = false := rfl
@[simp] theorem resetEdge_ill : s.resetEdge.ill = false := rfl
@[simp] theorem resetEdge_dom : s.resetEdge.dom = false := rfl
@[simp] theorem resetEdge_dout : s.resetEdge.dout = ZERO := rfl
@[simp] theorem resetEdge_inFlight : s.resetEdge.inFlight = none := rfl
@[simp] theorem resetEdge_din : s.resetEdge.din = ZERO := rfl
@[simp] theorem resetEdge_host : s.resetEdge.host = s.host := rfl

@[simp] theorem acceptHead_e : (s.acceptHead rest).e = s.e := rfl
@[simp] theorem acceptHead_edef : (s.acceptHead rest).edef = s.edef := rfl
@[simp] theorem acceptHead_t : (s.acceptHead rest).t = s.t := rfl
@[simp] theorem acceptHead_ill : (s.acceptHead rest).ill = s.ill := rfl
@[simp] theorem acceptHead_dom : (s.acceptHead rest).dom = s.dom := rfl
@[simp] theorem acceptHead_dout : (s.acceptHead rest).dout = s.dout := rfl
@[simp] theorem acceptHead_inFlight : (s.acceptHead rest).inFlight = s.inFlight := rfl
@[simp] theorem acceptHead_din : (s.acceptHead rest).din = s.din := rfl
@[simp] theorem acceptHead_host : (s.acceptHead rest).host = rest := rfl

@[simp] theorem acceptHead_reg : (s.acceptHead rest).reg r = s.reg r := rfl
@[simp] theorem acceptHead_isDefined : (s.acceptHead rest).isDefined r = s.isDefined r := rfl

@[simp] theorem sampleDin_e (i : Instr) : (s.sampleDin i v).e = s.e := by unfold State.sampleDin; split <;> rfl
@[simp] theorem sampleDin_edef (i : Instr) : (s.sampleDin i v).edef = s.edef := by unfold State.sampleDin; split <;> rfl
@[simp] theorem sampleDin_t (i : Instr) : (s.sampleDin i v).t = s.t := by unfold State.sampleDin; split <;> rfl
@[simp] theorem sampleDin_ill (i : Instr) : (s.sampleDin i v).ill = s.ill := by unfold State.sampleDin; split <;> rfl
@[simp] theorem sampleDin_dom (i : Instr) : (s.sampleDin i v).dom = s.dom := by unfold State.sampleDin; split <;> rfl
@[simp] theorem sampleDin_dout (i : Instr) : (s.sampleDin i v).dout = s.dout := by unfold State.sampleDin; split <;> rfl
@[simp] theorem sampleDin_inFlight (i : Instr) : (s.sampleDin i v).inFlight = s.inFlight := by
  unfold State.sampleDin; split <;> rfl
@[simp] theorem sampleDin_host (i : Instr) : (s.sampleDin i v).host = s.host := by unfold State.sampleDin; split <;> rfl
@[simp] theorem sampleDin_ld : (s.sampleDin (.ld rd) v).din = v := rfl

/-- A command other than LD samples nothing (R23). -/
theorem sampleDin_of_not_ld {i : Instr} (h : ∀ rd, i ≠ .ld rd) : s.sampleDin i v = s := by
  cases i <;> first | rfl | exact absurd rfl (h _)

/-- The sample changes no element register and no definedness. -/
@[simp] theorem sampleDin_reg (i : Instr) : (s.sampleDin i v).reg r = s.reg r := by simp [State.reg]
@[simp] theorem sampleDin_isDefined (i : Instr) : (s.sampleDin i v).isDefined r = s.isDefined r := by
  simp [State.isDefined]

/-- Reading the register just written. -/
@[simp] theorem reg_writeReg_self : (s.writeReg rd v).reg rd = v := by
  simp [State.reg, Vector.get_eq_getElem]

/-- Reading another register. -/
theorem reg_writeReg_ne (h : r ≠ rd) : (s.writeReg rd v).reg r = s.reg r := by
  have : (rd : Nat) ≠ (r : Nat) := fun hh => h (Fin.ext hh.symm)
  simp [State.reg, Vector.get_eq_getElem, Vector.getElem_set_ne, this]

/-- R18: any write defines the register written. -/
@[simp] theorem isDefined_writeReg_self : (s.writeReg rd v).isDefined rd = true := by
  simp [State.isDefined, Vector.get_eq_getElem]

/-- A write leaves the definedness of every other register. -/
theorem isDefined_writeReg_ne (h : r ≠ rd) : (s.writeReg rd v).isDefined r = s.isDefined r := by
  have : (rd : Nat) ≠ (r : Nat) := fun hh => h (Fin.ext hh.symm)
  simp [State.isDefined, Vector.get_eq_getElem, Vector.getElem_set_ne, this]

/-- A write never undefines a register. -/
theorem isDefined_writeReg_mono (h : s.isDefined r = true) : (s.writeReg rd v).isDefined r = true := by
  by_cases hr : r = rd
  · subst hr
    simp
  · rw [isDefined_writeReg_ne s r rd v hr, h]

/-- After reset no register is defined (R18). -/
@[simp] theorem isDefined_reset : State.reset.isDefined r = false := by
  simp [State.isDefined, State.reset, Vector.get_eq_getElem]

end Sys2Proof.Machine
end

