-- ==== Sys2Proof/Laws/Operands.lean ====
section
/-! SUPPORT. Everything reading a source register can do (R18, R48, R84). -/
namespace Sys2Proof.Machine
variable {s t : State} {r rs1 rs2 : Reg}

/-- A defined source is read. -/
theorem withSource_of_defined {k : Elem → Result} (h : s.isDefined r = true) :
    s.withSource r k = k (s.reg r) := by
  simp [State.withSource, h]

/-- An undefined source is the model fault UNINIT. -/
theorem withSource_of_undefined {k : Elem → Result} (h : s.isDefined r = false) :
    s.withSource r k = .fault (.uninit r) := by
  simp [State.withSource, h]

/-- Two defined sources are read. -/
theorem withSources_of_defined {k : Elem → Elem → Result} (h1 : s.isDefined rs1 = true)
    (h2 : s.isDefined rs2 = true) : s.withSources rs1 rs2 k = k (s.reg rs1) (s.reg rs2) := by
  simp [State.withSources, withSource_of_defined, h1, h2]

/-- A read that answers a next state read a defined source. -/
theorem withSource_next {k : Elem → Result} (h : s.withSource r k = .next t) :
    s.isDefined r = true ∧ k (s.reg r) = .next t := by
  unfold State.withSource at h
  split at h
  · exact ⟨‹_›, h⟩
  · cases h

/-- Two reads that answer a next state read two defined sources. -/
theorem withSources_next {k : Elem → Elem → Result} (h : s.withSources rs1 rs2 k = .next t) :
    s.isDefined rs1 = true ∧ s.isDefined rs2 = true ∧ k (s.reg rs1) (s.reg rs2) = .next t := by
  obtain ⟨h1, h⟩ := withSource_next h
  obtain ⟨h2, h⟩ := withSource_next h
  exact ⟨h1, h2, h⟩

end Sys2Proof.Machine
end

