-- ==== Sys2Proof/Laws/Engine.lean ====
section
/-! SUPPORT. Whatever an engine's pace, it answers the same result (R70, D30), and from its start it answers what the
command's meaning computes. -/
namespace Sys2Proof.Machine
variable (a b : Elem)

theorem mulRound_of_done {w : MulWork} (h : ¬ w.round < 233) : mulRound w = w := if_neg h

theorem invRound_of_done {w : InvWork} (h : ¬ w.idx < 8) : invRound a w = w := if_neg h

theorem mulRound_round {w : MulWork} (h : w.round < 233) : (mulRound w).round = w.round + 1 := by
  rw [mulRound, if_pos h]

theorem invRound_idx {w : InvWork} (h : w.idx < 8) : (invRound a w).idx = w.idx + 1 := by
  rw [invRound, if_pos h]

/-- A round done early is a round fewer to do. -/
theorem result_round (g : Engine) : (g.round a b).result a b = g.result a b := by
  cases g with
  | idle => rfl
  | mul w =>
    simp only [Engine.round, Engine.result]
    by_cases h : w.round < 233
    · obtain ⟨n, hn⟩ : ∃ n, 233 - w.round = n + 1 := ⟨232 - w.round, by omega⟩
      rw [mulRound_round h, hn, show 233 - (w.round + 1) = n by omega, Function.iterate_succ, Function.comp]
    · rw [mulRound_of_done h]
  | pow w =>
    obtain ⟨r, pos⟩ := w
    cases pos <;> rfl
  | inv w =>
    simp only [Engine.round, Engine.result]
    by_cases h : w.idx < 8
    · obtain ⟨n, hn⟩ : ∃ n, 8 - w.idx = n + 1 := ⟨7 - w.idx, by omega⟩
      rw [invRound_idx a h, hn, show 8 - (w.idx + 1) = n by omega, Function.iterate_succ, Function.comp]
    · rw [invRound_of_done a h]

/-- Any number of rounds done early. -/
theorem result_round_iterate (n : Nat) (g : Engine) : ((Engine.round a b)^[n] g).result a b = g.result a b := by
  induction n generalizing g with
  | zero => rfl
  | succ n ih => rw [Function.iterate_succ, Function.comp, ih, result_round]

/-- The engine of MUL answers the product. -/
theorem result_mulStart : (Engine.mul (mulStart a b)).result a b = fieldMul a b := by
  rw [← fieldMulByRounds_eq]
  simp only [Engine.result, fieldMulByRounds, mulStart, Nat.sub_zero]

/-- The engine of POW answers the power. -/
theorem result_powStart (len : Nat) : (Engine.pow (powStart a b len)).result a b = fieldPow a b len := rfl

/-- The engine's chain positions, one round each, are the loop of R76. -/
theorem invRound_iterate (n : Nat) (w : InvWork) (h : w.idx + n = 8) :
    ((invRound a)^[n] w).beta =
      ((chain.drop w.idx).foldl (fun u bit => chainStep elemOps a bit u) (w.beta, w.k)).1 := by
  induction n generalizing w with
  | zero =>
    have : w.idx = 8 := h
    rw [this]
    rfl
  | succ n ih =>
    have hi : w.idx < 8 := by omega
    have hl : chain.length = 8 := rfl
    rw [Function.iterate_succ, Function.comp, ih _ (by rw [invRound_idx a hi]; omega),
      List.drop_eq_getElem_cons (i := w.idx) (by rw [hl]; exact hi), List.foldl_cons, invRound_idx a hi, invRound,
      if_pos hi, List.getD_eq_getElem _ _ (by rw [hl]; exact hi)]

/-- The engine of INV answers the inverse. -/
theorem result_invStart : (Engine.inv (invStart a)).result a b = fieldInv a :=
  congrArg fieldSqr (invRound_iterate a 7 (invStart a) rfl)

end Sys2Proof.Machine
end

