-- ==== Sys2Proof/Laws/Exec.lean ====
section
/-! SUPPORT. Once for all commands: what `exec` can do (R48), and what `step` can do. -/
namespace Sys2Proof.Machine
variable {i : Instr} {s t : State}

/-- What a command writes, from its operand values; that of LD is the sampled `din`. -/
def effectOf (i : Instr) (a b : Elem) : Effect :=
  match i with
  | .nop => nopEffect
  | .ld rd => ldEffect rd a
  | .st _ => stEffect a
  | .clr => clrEffect
  | .add rd _ _ => addEffect rd a b
  | .sqr rd _ => sqrEffect rd a
  | .rot rd _ k => rotEffect rd k a
  | .trc _ => trcEffect a
  | .mul rd _ _ => mulEffect rd (fieldMul a b)
  | .pow rd _ _ len => powEffect rd (fieldPow a b len.toNat)
  | .inv rd _ => invEffect rd a (fieldInv a)

/-- R48: read the sources, then write the command's effect. -/
theorem exec_eq_withLatched (h : i.wellFormed = true) (s : State) :
    exec i s = s.withLatched i fun a b => .next (s.commit (effectOf i a b)) := by
  cases i with
  | pow rd rs1 rs2 len =>
    have : ¬ 233 < len.toNat := by simpa [Instr.wellFormed] using h
    simp only [exec, execPow, if_neg this]
    rfl
  | _ => rfl

/-- With its sources defined, a command latches their values. -/
theorem withLatched_of_defined (h : ∀ r ∈ sources i, s.isDefined r = true) (k : Elem → Elem → Result) :
    s.withLatched i k = k (latchedOperands i s).1 (latchedOperands i s).2 := by
  cases i <;> simp_all [State.withLatched, latchedOperands, samplesDin, sources, withSource_of_defined,
    withSources_of_defined]

/-- With a source undefined, a command stops at the first such source (R84). -/
theorem withLatched_of_undefined {r : Reg} (h : (sources i).find? (fun r => !s.isDefined r) = some r)
    (k : Elem → Elem → Result) : s.withLatched i k = .fault (.uninit r) := by
  cases i <;> simp only [sources, List.find?_nil, List.find?_cons, reduceCtorEq] at h <;>
    simp only [State.withLatched, samplesDin, sources, State.withSources, State.withSource, Bool.false_eq_true,
      if_false] <;>
    (repeat' split at h) <;> simp_all

/-- A command that reads its sources read defined ones. -/
theorem withLatched_next {k : Elem → Elem → Result} (h : s.withLatched i k = .next t) :
    (∀ r ∈ sources i, s.isDefined r = true) ∧ k (latchedOperands i s).1 (latchedOperands i s).2 = .next t := by
  by_cases hd : ∀ r ∈ sources i, s.isDefined r = true
  · exact ⟨hd, by rwa [withLatched_of_defined hd] at h⟩
  · have hex : ∃ r ∈ sources i, (!s.isDefined r) = true := by simpa using hd
    obtain ⟨r, hr⟩ := Option.isSome_iff_exists.mp (List.find?_isSome.mpr hex)
    rw [withLatched_of_undefined hr] at h
    cases h

/-- A well-formed command whose sources are defined completes, with its effect written (R48). -/
theorem exec_of_defined (hw : i.wellFormed = true) (h : ∀ r ∈ sources i, s.isDefined r = true) :
    exec i s = .next (s.commit (effectOf i (latchedOperands i s).1 (latchedOperands i s).2)) := by
  rw [exec_eq_withLatched hw, withLatched_of_defined h]

/-- A well-formed command with an undefined source is the model fault UNINIT of the first one (R18, R84). -/
theorem exec_of_undefined (hw : i.wellFormed = true) {r : Reg}
    (h : (sources i).find? (fun r => !s.isDefined r) = some r) : exec i s = .fault (.uninit r) := by
  rw [exec_eq_withLatched hw, withLatched_of_undefined h]

/-- Everything a command can do when it answers a next state: it read defined sources and wrote its effect, or it was an
exponentiation with an illegal length and raised ILLEGAL. -/
theorem exec_next (h : exec i s = .next t) :
    ((∀ r ∈ sources i, s.isDefined r = true) ∧
      t = s.commit (effectOf i (latchedOperands i s).1 (latchedOperands i s).2)) ∨
    (i.wellFormed = false ∧ t = s.raise .illegal) := by
  by_cases hw : i.wellFormed = true
  · rw [exec_eq_withLatched hw] at h
    obtain ⟨hd, hk⟩ := withLatched_next h
    exact .inl ⟨hd, by cases hk; rfl⟩
  · refine .inr ⟨by simpa using hw, ?_⟩
    cases i with
    | pow rd rs1 rs2 len =>
      have : 233 < len.toNat := by simpa [Instr.wellFormed] using hw
      simp only [exec, execPow, if_pos this] at h
      cases h
      rfl
    | _ => simp [Instr.wellFormed] at hw

/-- What a command's effect is, by the kind of its destination: it writes its element register, or raises DOMAIN (INV
alone), or writes the flag or register its rule names. -/
theorem effectOf_element {a b v : Elem} {rd : Reg} (h : effectOf i a b = .element rd v) :
    destination i = some rd := by
  cases i <;> simp_all [effectOf, destination, nopEffect, ldEffect, stEffect, clrEffect, addEffect, sqrEffect,
    rotEffect, trcEffect, mulEffect, powEffect, invEffect]
  split at h <;> simp_all

/-- A step, by what the host does next and what is in flight. -/
theorem step_reset {rest : List HostAction} (h : s.host = .reset :: rest) :
    step s = .next ({ s with host := rest } : State).resetEdge := by
  simp [step, fetch, h]

theorem step_inFlight {f : InFlight} (hf : s.inFlight = some f) (h : ∀ rest, s.host ≠ .reset :: rest) :
    step s = .next (s.complete f) := by
  have : fetch s = .completes f := by
    unfold fetch
    split <;> simp_all
  simp [step, this]

theorem step_idle (hf : s.inFlight = none) (h : s.host = []) : step s = .next s := by
  simp [step, fetch, hf, h]

theorem step_instruction {w : Word} {din : Elem} {rest : List HostAction} (hf : s.inFlight = none)
    (h : s.host = .command w din :: rest) (hd : decode w = .ok i) :
    step s = exec i ((s.acceptHead rest).sampleDin i din) := by
  simp [step, fetch, hf, h, hd]

theorem step_illegal {w : Word} {din : Elem} {rest : List HostAction} {x : Illegal} (hf : s.inFlight = none)
    (h : s.host = .command w din :: rest) (hd : decode w = .error x) :
    step s = .next ((s.acceptHead rest).raise .illegal) := by
  simp [step, fetch, hf, h, hd]

/-- Everything a step can do when it answers a next state. -/
theorem step_next (h : step s = .next t) :
    (∃ rest, s.host = .reset :: rest ∧ t = ({ s with host := rest } : State).resetEdge) ∨
    (∃ f, s.inFlight = some f ∧ t = s.complete f) ∨
    (s.inFlight = none ∧ s.host = [] ∧ t = s) ∨
    (∃ w din rest x, s.inFlight = none ∧ s.host = .command w din :: rest ∧ decode w = .error x ∧
      t = (s.acceptHead rest).raise .illegal) ∨
    (∃ w din rest i, s.inFlight = none ∧ s.host = .command w din :: rest ∧ decode w = .ok i ∧
      exec i ((s.acceptHead rest).sampleDin i din) = .next t) := by
  match hh : s.host, hf : s.inFlight with
  | .reset :: rest, _ => exact .inl ⟨rest, rfl, by rw [step_reset hh] at h; cases h; rfl⟩
  | [], some f =>
    rw [step_inFlight hf (by simp [hh])] at h
    exact .inr (.inl ⟨f, rfl, by cases h; rfl⟩)
  | .command w din :: rest, some f =>
    rw [step_inFlight hf (by simp [hh])] at h
    exact .inr (.inl ⟨f, rfl, by cases h; rfl⟩)
  | [], none =>
    rw [step_idle hf hh] at h
    exact .inr (.inr (.inl ⟨rfl, rfl, by cases h; rfl⟩))
  | .command w din :: rest, none =>
    cases hd : decode w with
    | error x =>
      rw [step_illegal hf hh hd] at h
      exact .inr (.inr (.inr (.inl ⟨w, din, rest, x, rfl, rfl, hd, by cases h; rfl⟩)))
    | ok i =>
      rw [step_instruction hf hh hd] at h
      exact .inr (.inr (.inr (.inr ⟨w, din, rest, i, rfl, rfl, hd, h⟩)))

end Sys2Proof.Machine
end

