-- ==== Sys2Proof/Laws/Field.lean ====
section
/-! SUPPORT. The elements and their operations inside a field of characteristic 2 that holds a primitive 467th root of
unity ζ. R11's reading of an index, "storage index i holds the coefficient of the basis element β^(2^(m−1−i))", is here a
map: it takes ADD, SQR, MUL and ONE to the field's own, and no two elements to the same value. -/

set_option Elab.async false
namespace Sys2Proof.Machine
open Finset

/-- Sums over a whole period of a periodic sequence do not change when the sequence is shifted. -/
theorem sum_range_shift {M : Type} [AddCommGroup M] {n : ℕ} {f : ℕ → M} (hf : ∀ k, f (k + n) = f k) (c : ℕ) :
    ∑ k ∈ range n, f (k + c) = ∑ k ∈ range n, f k := by
  induction c with
  | zero => rfl
  | succ c ih =>
    rw [← ih]
    have h1 := Finset.sum_range_succ (fun k => f (k + c)) n
    have h2 := Finset.sum_range_succ' (fun k => f (k + c)) n
    have h3 : f (n + c) = f (0 + c) := by rw [Nat.add_comm n c, hf, Nat.zero_add]
    rw [h1, h3] at h2
    have h4 := add_right_cancel h2
    rw [h4]
    exact Finset.sum_congr rfl fun k _ => by rw [Nat.add_right_comm, Nat.add_assoc]

/-- A sum over the list 0..n-1. -/
theorem sum_map_range {M : Type} [AddCommMonoid M] (f : ℕ → M) (n : ℕ) :
    ((List.range n).map f).sum = ∑ k ∈ range n, f k := by
  induction n with
  | zero => rfl
  | succ n ih => simp [List.range_succ, Finset.sum_range_succ, ih]

section
variable {K : Type} [Field K]

/-- `ζ^n + ζ^(-n)`. -/
def conj2 (ζ : K) (n : ℕ) : K := ζ ^ n + ζ⁻¹ ^ n

/-- The basis element β^(2^k), with β = ζ + ζ⁻¹ (R11). -/
def basisValue (ζ : K) (k : ℕ) : K := conj2 ζ (2 ^ k)

/-- R70's `A_k = a[232 - (k mod 233)]`, as 0 or 1 of the field. -/
def coeff (K : Type) [Field K] (a : Elem) (k : ℕ) : K := if a.getLsbD (232 - k % 233) then 1 else 0

/-- The value of an element in the field (R11). -/
def embed (ζ : K) (a : Elem) : K := ∑ k ∈ range 233, coeff K a k * basisValue ζ k

/-- In characteristic 2, an XOR is a sum. -/
theorem boolValue_xor [CharP K 2] (x y : Bool) :
    (if (x ^^ y) = true then (1 : K) else 0) = (if x = true then 1 else 0) + if y = true then 1 else 0 := by
  cases x <;> cases y <;> simp [CharTwo.add_self_eq_zero]

/-- In characteristic 2, an XOR over a list is a sum over it. -/
theorem boolValue_xorList [CharP K 2] {α : Type} (l : List α) (f : α → Bool) :
    (if xorList l f = true then (1 : K) else 0) = (l.map fun x => if f x = true then (1 : K) else 0).sum := by
  induction l with
  | nil => simp
  | cons x l ih => rw [xorList_cons, boolValue_xor, ih, List.map_cons, List.sum_cons]

theorem coeff_period (a : Elem) (k : ℕ) : coeff K a (k + 233) = coeff K a k := by
  simp [coeff]

theorem coeff_mod (a : Elem) {k l : ℕ} (h : k % 233 = l % 233) : coeff K a k = coeff K a l := by
  simp [coeff, h]

variable {ζ : K} (hζ : IsPrimitiveRoot ζ 467)
include hζ

theorem conj2_mod {n n' : ℕ} (h : n % 467 = n' % 467) : conj2 ζ n = conj2 ζ n' := by
  have h1 : ∀ (x : K) (m : ℕ), x ^ 467 = 1 → x ^ m = x ^ (m % 467) := fun x m hx => by
    conv_lhs => rw [← Nat.div_add_mod m 467, pow_add, pow_mul, hx, one_pow, one_mul]
  have h2 : ζ⁻¹ ^ 467 = 1 := by rw [inv_pow, hζ.pow_eq_one, inv_one]
  rw [conj2, conj2, h1 ζ n hζ.pow_eq_one, h1 ζ n' hζ.pow_eq_one, h1 _ n h2, h1 _ n' h2, h]

theorem conj2_neg {n n' : ℕ} (h : (n + n') % 467 = 0) : conj2 ζ n = conj2 ζ n' := by
  have h1 : ζ ^ n * ζ ^ n' = 1 := by
    rw [← pow_add, hζ.pow_eq_one_iff_dvd]
    exact Nat.dvd_of_mod_eq_zero h
  have h2 : ζ⁻¹ ^ n' = ζ ^ n := by
    rw [inv_pow, inv_eq_of_mul_eq_one_left h1]
  have h3 : ζ⁻¹ ^ n = ζ ^ n' := by
    rw [inv_pow, inv_eq_of_mul_eq_one_right h1]
  rw [conj2, conj2, h2, h3, add_comm]

theorem conj2_mul {m n : ℕ} (h : n ≤ m) : conj2 ζ m * conj2 ζ n = conj2 ζ (m + n) + conj2 ζ (m - n) := by
  have hz : ζ ≠ 0 := hζ.ne_zero (by decide)
  obtain ⟨d, rfl⟩ := Nat.exists_eq_add_of_le h
  have hn : ζ ^ n * ζ⁻¹ ^ n = 1 := by rw [← mul_pow, mul_inv_cancel₀ hz, one_pow]
  simp only [conj2, pow_add, Nat.add_sub_cancel_left]
  linear_combination (ζ ^ d + ζ⁻¹ ^ d) * hn

/-- Two values that are equal up to sign modulo 467 have the same conjugate sum. -/
theorem conj2_pm {n n' : ℕ} (h : n % 467 = n' % 467 ∨ (n + n') % 467 = 0) : conj2 ζ n = conj2 ζ n' :=
  h.elim (conj2_mod hζ) (conj2_neg hζ)

theorem basisValue_period (k : ℕ) : basisValue ζ (k + 233) = basisValue ζ k := by
  refine conj2_neg hζ ?_
  rw [pow_add, ← Nat.mul_succ, Nat.mul_mod]
  have : (2 ^ 233).succ % 467 = 0 := by decide
  rw [this, Nat.mul_zero, Nat.zero_mod]

theorem basisValue_mod {k l : ℕ} (h : k % 233 = l % 233) : basisValue ζ k = basisValue ζ l := by
  have h1 : ∀ n, basisValue ζ n = basisValue ζ (n % 233) := fun n =>
    (Function.Periodic.map_mod_nat (basisValue_period hζ) n).symm
  rw [h1 k, h1 l, h]

end

/-- The pairs of Λ whose column is `d` places after their row, by the index `k = -row` at which R70's sum for coefficients
0 and `d` of the operands uses them. -/
def pairIndices (d : ℕ) : List ℕ :=
  (matrix.filter fun ij => (ij.1 + d) % 233 = ij.2).map fun ij => 233 - ij.1

/-- Equality up to sign modulo 467. -/
def samePm (n n' : ℕ) : Bool := n % 467 = n' % 467 ∨ (n + n') % 467 = 0

/-- What Λ says of a product of two different basis elements: its two columns are the two conjugate sums of the product. -/
def columnsMatch (d : ℕ) : Bool :=
  match pairIndices d with
  | [k, l] =>
    samePm (2 ^ d + 1) (2 ^ k) && samePm (2 ^ d - 1) (2 ^ l) || samePm (2 ^ d + 1) (2 ^ l) && samePm (2 ^ d - 1) (2 ^ k)
  | _ => false

/-- R62, R65: every two different basis elements multiply to the sum of the two that Λ marks. -/
theorem columnsMatch_all : ∀ d ∈ List.range' 1 232, columnsMatch d = true := by
  decide +kernel

theorem pairIndices_zero : pairIndices 0 = [1] := by
  decide +kernel

/-- Λ marks one pair for equal basis elements and two for different ones (R66). -/
theorem pairIndices_length : ∀ d ∈ List.range' 1 232, (pairIndices d).length = 2 := fun d hd => by
  have h := columnsMatch_all d hd
  unfold columnsMatch at h
  split at h
  · rename_i hkl
    rw [hkl]
    rfl
  · cases h

/-- Summing over the pairs of Λ is summing over the differences and then over the pairs of each difference. -/
theorem sum_matrix_by_difference {M : Type} [AddCommMonoid M] (l : List (ℕ × ℕ))
    (hl : ∀ ij ∈ l, ij.1 < 233 ∧ ij.2 < 233) (g : ℕ × ℕ → M) :
    ∑ d ∈ range 233, ((l.filter fun ij => (ij.1 + d) % 233 = ij.2).map g).sum = (l.map g).sum := by
  induction l with
  | nil => simp
  | cons x l ih =>
    obtain ⟨h1, h2⟩ := hl x (by simp)
    rw [List.map_cons, List.sum_cons, ← ih fun ij hij => hl ij (by simp [hij])]
    have hd : (x.2 + 233 - x.1) % 233 ∈ range 233 := by
      rw [Finset.mem_range]
      exact Nat.mod_lt _ (by decide)
    rw [← Finset.add_sum_erase _ _ hd, ← Finset.add_sum_erase _ (fun d => ((l.filter _).map g).sum) hd, ← add_assoc]
    congr 1
    · rw [List.filter_cons_of_pos (by simp; omega), List.map_cons, List.sum_cons]
    · refine Finset.sum_congr rfl fun d hd' => ?_
      rw [Finset.mem_erase, Finset.mem_range] at hd'
      rw [List.filter_cons_of_neg (by simp; omega)]

section
variable {K : Type} [Field K] [CharP K 2] {ζ : K} (hζ : IsPrimitiveRoot ζ 467)
include hζ

/-- The product of two basis elements (R62, R70). -/
theorem basisValue_mul (u : ℕ) {d : ℕ} (hd : d < 233) :
    basisValue ζ u * basisValue ζ (u + d) = ((pairIndices d).map fun k => basisValue ζ (u + k)).sum := by
  have hpm : ∀ n k, samePm n (2 ^ k) = true → conj2 ζ (2 ^ u * n) = basisValue ζ (u + k) := fun n k h => by
    rw [samePm, decide_eq_true_eq] at h
    rw [basisValue, pow_add]
    refine conj2_pm hζ (h.imp (fun h => ?_) fun h => ?_)
    · rw [Nat.mul_mod, h, ← Nat.mul_mod]
    · rw [← Nat.mul_add, Nat.mul_mod, h, Nat.mul_zero, Nat.zero_mod]
  have h1 : (1 : ℕ) ≤ 2 ^ d := Nat.one_le_two_pow
  have hmul : basisValue ζ u * basisValue ζ (u + d) =
      conj2 ζ (2 ^ u * (2 ^ d + 1)) + conj2 ζ (2 ^ u * (2 ^ d - 1)) := by
    rw [mul_comm, basisValue, basisValue, pow_add, conj2_mul hζ (Nat.le_mul_of_pos_right _ (by omega)),
      Nat.mul_add, Nat.mul_sub, Nat.mul_one]
  rw [hmul]
  rcases Nat.eq_zero_or_pos d with rfl | hpos
  · have h2 : conj2 ζ (2 ^ u * (2 ^ 0 - 1)) = 0 := by
      simp only [pow_zero, Nat.sub_self, Nat.mul_zero, conj2]
      exact CharTwo.add_self_eq_zero 1
    rw [pairIndices_zero, h2, hpm (2 ^ 0 + 1) 1 (by decide)]
    simp
  · have h := columnsMatch_all d (by rw [List.mem_range'_1]; omega)
    unfold columnsMatch at h
    split at h
    · rename_i k l hkl
      rw [hkl]
      simp only [Bool.or_eq_true, Bool.and_eq_true] at h
      rcases h with ⟨ha, hb⟩ | ⟨ha, hb⟩
      · simp [hpm _ _ ha, hpm _ _ hb]
      · rw [hpm _ _ ha, hpm _ _ hb, List.map_cons, List.map_cons, List.map_nil, List.sum_cons, List.sum_cons,
          List.sum_nil, add_zero, add_comm]
    · cases h

omit hζ in
/-- The field's ADD (R53). -/
theorem embed_add (a b : Elem) : embed ζ (fieldAdd a b) = embed ζ a + embed ζ b := by
  rw [embed, embed, embed, ← Finset.sum_add_distrib]
  refine Finset.sum_congr rfl fun k _ => ?_
  rw [← add_mul]
  congr 1
  rw [coeff, coeff, coeff, getLsbD_fieldAdd, boolValue_xor]

omit hζ in
/-- R70's closed form with coefficients in the field. -/
theorem coeff_fieldMul (a b : Elem) (k : ℕ) :
    coeff K (fieldMul a b) k = (matrix.map fun ij => coeff K a (ij.1 + k) * coeff K b (ij.2 + k)).sum := by
  rw [coeff, getLsbD_fieldMul a b (by omega), boolValue_xorList]
  congr 1
  refine List.map_congr_left fun ij hij => ?_
  obtain ⟨h1, h2⟩ := matrix_bounds ij hij
  have e1 : (232 - k % 233 + (233 - ij.1)) % 233 = 232 - (ij.1 + k) % 233 := by omega
  have e2 : (232 - k % 233 + (233 - ij.2)) % 233 = 232 - (ij.2 + k) % 233 := by omega
  rw [coeff, coeff, e1, e2]
  cases a.getLsbD (232 - (ij.1 + k) % 233) <;> cases b.getLsbD (232 - (ij.2 + k) % 233) <;> simp

/-- The field's MUL (R67): the engine's product is the product of the values. -/
theorem embed_mul (a b : Elem) : embed ζ (fieldMul a b) = embed ζ a * embed ζ b := by
  have hpairs : ∀ d ∈ range 233,
      ∑ u ∈ range 233, coeff K a u * coeff K b (u + d) * (basisValue ζ u * basisValue ζ (u + d)) =
        ((matrix.filter fun ij => (ij.1 + d) % 233 = ij.2).map fun ij =>
          ∑ m ∈ range 233, coeff K a (ij.1 + m) * coeff K b (ij.2 + m) * basisValue ζ m).sum := by
    intro d hd
    rw [Finset.mem_range] at hd
    have hterm : ∀ u, coeff K a u * coeff K b (u + d) * (basisValue ζ u * basisValue ζ (u + d)) =
        ((matrix.filter fun ij => (ij.1 + d) % 233 = ij.2).map fun ij =>
          coeff K a u * coeff K b (u + d) * basisValue ζ (u + (233 - ij.1))).sum := fun u => by
      rw [basisValue_mul hζ u hd, pairIndices, List.map_map, ← List.sum_map_mul_left]
      rfl
    rw [Finset.sum_congr rfl fun u _ => hterm u]
    have hcomm : ∀ (l : List (ℕ × ℕ)) (g : ℕ → ℕ × ℕ → K),
        ∑ u ∈ range 233, (l.map (g u)).sum = (l.map fun x => ∑ u ∈ range 233, g u x).sum := fun l g => by
      induction l with
      | nil => simp
      | cons x l ih => simp only [List.map_cons, List.sum_cons, Finset.sum_add_distrib, ih]
    rw [hcomm]
    congr 1
    refine List.map_congr_left fun ij hij => ?_
    obtain ⟨hmem, hcol⟩ := List.mem_filter.mp hij
    obtain ⟨h1, h2⟩ := matrix_bounds ij hmem
    rw [decide_eq_true_eq] at hcol
    rw [← sum_range_shift (n := 233)
      (f := fun u => coeff K a u * coeff K b (u + d) * basisValue ζ (u + (233 - ij.1))) (fun k => ?_) ij.1]
    · refine Finset.sum_congr rfl fun m _ => ?_
      rw [coeff_mod a (show (m + ij.1) % 233 = (ij.1 + m) % 233 by omega),
        coeff_mod b (show (m + ij.1 + d) % 233 = (ij.2 + m) % 233 by omega),
        basisValue_mod hζ (show (m + ij.1 + (233 - ij.1)) % 233 = m % 233 by omega)]
    · rw [coeff_period, Nat.add_right_comm, coeff_period, Nat.add_right_comm, basisValue_period hζ]
  have hsplit : embed ζ a * embed ζ b =
      ∑ d ∈ range 233, ∑ u ∈ range 233,
        coeff K a u * coeff K b (u + d) * (basisValue ζ u * basisValue ζ (u + d)) := by
    rw [Finset.sum_comm, embed, embed, Finset.sum_mul]
    refine Finset.sum_congr rfl fun u _ => ?_
    rw [← sum_range_shift (n := 233) (f := fun k => coeff K b k * basisValue ζ k)
      (fun k => by rw [coeff_period, basisValue_period hζ]) u, Finset.mul_sum]
    refine Finset.sum_congr rfl fun d _ => ?_
    rw [Nat.add_comm d u]
    ring
  rw [hsplit, Finset.sum_congr rfl hpairs, sum_matrix_by_difference matrix matrix_bounds, embed]
  have hcoeff : ∀ k ∈ range 233, coeff K (fieldMul a b) k * basisValue ζ k =
      (matrix.map fun ij => coeff K a (ij.1 + k) * coeff K b (ij.2 + k) * basisValue ζ k).sum := fun k _ => by
    rw [coeff_fieldMul, ← List.sum_map_mul_right]
  rw [Finset.sum_congr rfl hcoeff]
  generalize matrix = l
  induction l with
  | nil => simp
  | cons x l ih => simp only [List.map_cons, List.sum_cons, Finset.sum_add_distrib, ih]

/-- The basis elements add up to 1: ONE is the field's one (R12). -/
theorem sum_basisValue : ∑ k ∈ range 233, basisValue ζ k = 1 := by
  have hinv : ∀ n, n < 467 → ζ⁻¹ ^ n = ζ ^ (467 - n) := fun n hn => by
    have : ζ ^ (467 - n) * ζ ^ n = 1 := by rw [← pow_add, Nat.sub_add_cancel hn.le, hζ.pow_eq_one]
    rw [inv_pow, inv_eq_of_mul_eq_one_left this]
  have hsum : ∀ l : List ℕ, (∀ n ∈ l, n < 467) →
      (l.map fun n => conj2 ζ n).sum = ((l ++ l.map fun n => 467 - n).map fun n => ζ ^ n).sum := fun l hl => by
    induction l with
    | nil => simp
    | cons n l ih =>
      rw [List.map_cons, List.sum_cons, ih fun m hm => hl m (by simp [hm]), conj2, hinv n (hl n (by simp))]
      simp only [List.map_append, List.map_cons, List.sum_append, List.sum_cons, List.cons_append]
      ring
  have hlist : ∑ k ∈ range 233, basisValue ζ k =
      (((List.range 233).map fun k => 2 ^ k % 467).map fun n => conj2 ζ n).sum := by
    rw [List.map_map, sum_map_range]
    exact Finset.sum_congr rfl fun k _ => conj2_mod hζ (Nat.mod_mod _ _).symm
  have hperm : ((((List.range 233).map fun k => 2 ^ k % 467) ++
      ((List.range 233).map fun k => 2 ^ k % 467).map fun n => 467 - n).isPerm (List.range' 1 466)) = true := by
    decide +kernel
  rw [hlist, hsum _ (by decide +kernel), ((List.isPerm_iff.mp hperm).map _).sum_eq]
  have hgeom := hζ.geom_sum_eq_zero (by decide : 1 < 467)
  rw [Finset.sum_range_succ' (fun i => ζ ^ i) 466, pow_zero] at hgeom
  have hr : ((List.range' 1 466).map fun n => ζ ^ n).sum = ∑ k ∈ range 466, ζ ^ (k + 1) := by
    rw [← sum_map_range, List.range'_eq_map_range, List.map_map]
    refine congrArg List.sum (List.map_congr_left fun k _ => ?_)
    rw [Function.comp, Nat.add_comm]
  rw [hr, ← CharTwo.sub_eq_add] at *
  exact sub_eq_zero.mp hgeom

theorem embed_one : embed ζ ONE = 1 := by
  rw [← sum_basisValue hζ, embed]
  refine Finset.sum_congr rfl fun k _ => ?_
  have : 232 - k % 233 < 233 := by omega
  simp [coeff, this]

omit hζ [CharP K 2] in
theorem embed_zero : embed ζ ZERO = 0 := by
  rw [embed]
  exact Finset.sum_eq_zero fun k _ => by simp [coeff]

omit hζ in
theorem basisValue_sq (k : ℕ) : basisValue ζ k ^ 2 = basisValue ζ (k + 1) := by
  rw [basisValue, basisValue, conj2, conj2, add_sq, pow_succ 2 k, pow_mul, pow_mul]
  have : (2 : K) = 0 := CharTwo.two_eq_zero
  rw [this]
  ring

/-- The field's SQR (R55): the squaring unit's rotation is the square of the value. -/
theorem embed_sqr (a : Elem) : embed ζ (fieldSqr a) = embed ζ a ^ 2 := by
  rw [embed, embed, CharTwo.sum_sq]
  rw [← sum_range_shift (n := 233) (f := fun k => coeff K (fieldSqr a) k * basisValue ζ k)
    (fun k => by rw [coeff_period, basisValue_period hζ]) 1]
  refine Finset.sum_congr rfl fun k hk => ?_
  rw [Finset.mem_range] at hk
  have h : coeff K (fieldSqr a) (k + 1) = coeff K a k ^ 2 := by
    rw [coeff, getLsbD_fieldSqr a (by omega), coeff,
      show (232 - (k + 1) % 233 + 1) % 233 = 232 - k % 233 by omega]
    split <;> simp
  rw [h, mul_pow, basisValue_sq]

/-- Squaring `n` times. -/
theorem embed_sqr_iterate (n : ℕ) (a : Elem) : embed ζ (fieldSqr^[n] a) = embed ζ a ^ 2 ^ n := by
  induction n with
  | zero => simp
  | succ n ih => rw [Function.iterate_succ', Function.comp, embed_sqr hζ, ih, ← pow_mul, pow_succ]

omit hζ in
/-- Frobenius, on a sum with coefficients 0 and 1. -/
theorem embed_pow_two_pow (a : Elem) (j : ℕ) :
    embed ζ a ^ 2 ^ j = ∑ k ∈ range 233, coeff K a k * basisValue ζ (k + j) := by
  induction j with
  | zero => simp [embed]
  | succ j ih =>
    rw [pow_succ, pow_mul, ih, CharTwo.sum_sq]
    refine Finset.sum_congr rfl fun k _ => ?_
    rw [mul_pow, basisValue_sq, Nat.add_assoc]
    congr 1
    rw [coeff]
    split <;> simp

/-- The basis is its own dual under the trace. -/
theorem sum_basisValue_mul (k : ℕ) {d : ℕ} (hd : d < 233) :
    ∑ j ∈ range 233, basisValue ζ (k + j) * basisValue ζ (k + j + d) = if d = 0 then 1 else 0 := by
  have hcomm : ∀ (l : List ℕ), ∑ j ∈ range 233, (l.map fun i => basisValue ζ (k + j + i)).sum = l.length := fun l => by
    induction l with
    | nil => simp
    | cons i l ih =>
      simp only [List.map_cons, List.sum_cons, Finset.sum_add_distrib, ih, List.length_cons, Nat.cast_add, Nat.cast_one]
      rw [add_comm]
      congr 1
      rw [← sum_basisValue hζ, ← sum_range_shift (n := 233) (basisValue_period hζ) (k + i)]
      exact Finset.sum_congr rfl fun j _ => congrArg _ (by omega)
  rw [Finset.sum_congr rfl fun j _ => basisValue_mul hζ (k + j) hd, hcomm]
  split
  · rename_i h
    rw [h, pairIndices_zero]
    simp
  · rw [pairIndices_length d (by rw [List.mem_range'_1]; omega)]
    exact CharTwo.two_eq_zero

/-- Each coefficient is the trace of the value with a basis element. -/
theorem coeff_eq_trace (a : Elem) (l : ℕ) :
    ∑ j ∈ range 233, embed ζ a ^ 2 ^ j * basisValue ζ (l + j) = coeff K a l := by
  have h : ∀ k ∈ range 233, ∑ j ∈ range 233, coeff K a (l + k) * (basisValue ζ (l + j) * basisValue ζ (l + j + k)) =
      if k = 0 then coeff K a l else 0 := fun k hk => by
    rw [← Finset.mul_sum, sum_basisValue_mul hζ l (Finset.mem_range.mp hk)]
    split <;> simp_all
  have h2 := Finset.sum_congr rfl h
  rw [Finset.sum_comm, Finset.sum_ite_eq' (range 233) 0 fun _ => coeff K a l, if_pos (by simp)] at h2
  rw [← h2]
  refine Finset.sum_congr rfl fun j _ => ?_
  rw [embed_pow_two_pow, ← sum_range_shift (n := 233) (f := fun k => coeff K a k * basisValue ζ (k + j))
    (fun k => by rw [coeff_period, Nat.add_right_comm, basisValue_period hζ]) l, Finset.sum_mul]
  refine Finset.sum_congr rfl fun k _ => ?_
  rw [Nat.add_comm k l, Nat.add_right_comm l k j]
  ring

/-- No two elements have the same value. -/
theorem embed_injective {a b : Elem} (h : embed ζ a = embed ζ b) : a = b := by
  refine elem_ext fun i hi => ?_
  have hc : coeff K a (232 - i) = coeff K b (232 - i) := by
    rw [← coeff_eq_trace hζ, ← coeff_eq_trace hζ b, h]
  rw [coeff, coeff, show 232 - (232 - i) % 233 = i by omega] at hc
  cases ha : a.getLsbD i <;> cases hb : b.getLsbD i <;> simp_all

/-- Only ZERO has the value 0. -/
theorem embed_eq_zero {a : Elem} (h : embed ζ a = 0) : a = ZERO :=
  embed_injective hζ (h.trans embed_zero.symm)

/-- Every value is its own 2^233rd power. -/
theorem embed_pow_card (a : Elem) : embed ζ a ^ 2 ^ 233 = embed ζ a := by
  rw [embed_pow_two_pow, embed]
  exact Finset.sum_congr rfl fun k _ => by rw [basisValue_period hζ]

end

/-- Such a field exists: an algebraic closure of GF(2) has a primitive 467th root of unity. -/
theorem exists_field : ∃ (K : Type) (_ : Field K) (_ : CharP K 2) (ζ : K), IsPrimitiveRoot ζ 467 := by
  have h : NeZero ((467 : ℕ) : AlgebraicClosure (ZMod 2)) := ⟨by
    rw [Ne, CharP.cast_eq_zero_iff (AlgebraicClosure (ZMod 2)) 2 467]
    decide⟩
  exact ⟨AlgebraicClosure (ZMod 2), inferInstance, inferInstance,
    HasEnoughRootsOfUnity.exists_primitiveRoot (AlgebraicClosure (ZMod 2)) 467⟩

end Sys2Proof.Machine
end

