-- ==== Sys2Proof/Laws/PerInstr.lean ====
section
/-! SUPPORT. Statements made once per instruction: family EncodedWord, what stands in the opcode and reserved fields of an
instruction's word (R39, R42). -/
namespace Sys2Proof.Laws

/-- The opcode number that R42 assigns. -/
def opcodeNumber : Instr → BitVec 4
  | .nop => 0x0#4
  | .ld _ => 0x1#4
  | .st _ => 0x2#4
  | .clr => 0x3#4
  | .add _ _ _ => 0x4#4
  | .sqr _ _ => 0x5#4
  | .rot _ _ _ => 0x6#4
  | .trc _ => 0x7#4
  | .mul _ _ _ => 0x8#4
  | .pow _ _ _ _ => 0x9#4
  | .inv _ _ => 0xA#4

namespace EncodedWord

/-- R39, R42: bits 31:28 of the word are the opcode, bits 10:0 are 0. -/
def Statement (i : Instr) : Prop :=
  (encode i).extractLsb' 28 4 = opcodeNumber i ∧ (encode i).extractLsb' 0 11 = 0#11

theorem nop : Statement .nop := ⟨op_ofFields .., res_ofFields ..⟩
theorem ld (rd : Reg) : Statement (.ld rd) := ⟨op_ofFields .., res_ofFields ..⟩
theorem st (rs1 : Reg) : Statement (.st rs1) := ⟨op_ofFields .., res_ofFields ..⟩
theorem clr : Statement .clr := ⟨op_ofFields .., res_ofFields ..⟩
theorem add (rd rs1 rs2 : Reg) : Statement (.add rd rs1 rs2) := ⟨op_ofFields .., res_ofFields ..⟩
theorem sqr (rd rs1 : Reg) : Statement (.sqr rd rs1) := ⟨op_ofFields .., res_ofFields ..⟩
theorem rot (rd rs1 : Reg) (k : BitVec 8) : Statement (.rot rd rs1 k) := ⟨op_ofFields .., res_ofFields ..⟩
theorem trc (rs1 : Reg) : Statement (.trc rs1) := ⟨op_ofFields .., res_ofFields ..⟩
theorem mul (rd rs1 rs2 : Reg) : Statement (.mul rd rs1 rs2) := ⟨op_ofFields .., res_ofFields ..⟩
theorem pow (rd rs1 rs2 : Reg) (len : BitVec 8) : Statement (.pow rd rs1 rs2 len) :=
  ⟨op_ofFields .., res_ofFields ..⟩
theorem inv (rd rs1 : Reg) : Statement (.inv rd rs1) := ⟨op_ofFields .., res_ofFields ..⟩

end EncodedWord

end Sys2Proof.Laws
end

