-- ==== Sys2Proof/Laws/Power.lean ====
section
/-! SUPPORT. What the exponentiation and inversion engines compute (R72, R76), by coefficients and in the field of
Laws/Field. -/

set_option Elab.async false

namespace Sys2Proof.Machine

/-- The exponent's bits below `n + 1` are its bits below `n` and bit `n`. -/
theorem toNat_mod_two_pow_succ (x : Elem) (n : ℕ) :
    x.toNat % 2 ^ (n + 1) = x.toNat % 2 ^ n + 2 ^ n * (x.getLsbD n).toNat := by
  rw [Nat.mod_pow_succ]
  congr 2
  rw [BitVec.getLsbD, Nat.testBit, Nat.shiftRight_eq_div_pow, Nat.and_comm, Nat.and_one_is_mod]
  rcases Nat.mod_two_eq_zero_or_one (x.toNat / 2 ^ n) with h | h <;> simp [h]

/-- R72's loop as a fold over the exponent positions, highest first. -/
theorem powLoop_eq_foldl {α : Type} (F : FieldOps α) (a : α) (x : Elem) (n : ℕ) (r : α) :
    powLoop F a x n r = (List.range n).reverse.foldl (fun r idx => powBit F a (x.getLsbD idx) r) r := by
  induction n generalizing r with
  | zero => rfl
  | succ n ih =>
    rw [powLoop, ih, List.range_succ]
    simp

theorem elemOps_mul : elemOps.mul = fieldMul := by rw [elemOps]
theorem elemOps_sqr : elemOps.sqr = fieldSqr := by rw [elemOps]
theorem elemOps_one : elemOps.one = ONE := by rw [elemOps]

/-- One chain position, by its bit (R76). -/
theorem chainStep_eq {α : Type} (F : FieldOps α) (a : α) (bit : Bool) (beta : α) (k : ℕ) :
    chainStep F a bit (beta, k) =
      if bit then (F.mul (F.sqr (F.mul (F.sqr^[k] beta) beta)) a, 2 * k + 1)
      else (F.mul (F.sqr^[k] beta) beta, 2 * k) := rfl

section
variable {K : Type} [Field K] [CharP K 2] {ζ : K} (hζ : IsPrimitiveRoot ζ 467)
include hζ

theorem embed_ne_zero {a : Elem} (h : a ≠ ZERO) : embed ζ a ≠ 0 := fun h0 => h (embed_eq_zero hζ h0)

/-- The powers of R74 are the field's powers. -/
theorem embed_selfProduct (a : Elem) (n : ℕ) : embed ζ (selfProduct a n) = embed ζ a ^ n := by
  induction n with
  | zero => rw [selfProduct, embed_one hζ, pow_zero]
  | succ n ih => rw [selfProduct, embed_mul hζ, ih, pow_succ]

/-- The loop of R72 on a running result. -/
theorem embed_powLoop (a x : Elem) (n : ℕ) (r : Elem) :
    embed ζ (powLoop elemOps a x n r) = embed ζ r ^ 2 ^ n * embed ζ a ^ (x.toNat % 2 ^ n) := by
  induction n generalizing r with
  | zero => simp [powLoop, Nat.mod_one]
  | succ n ih =>
    rw [powLoop, ih, toNat_mod_two_pow_succ, powBit, elemOps_mul, elemOps_sqr]
    cases x.getLsbD n
    · simp only [Bool.false_eq_true, if_false, embed_sqr hζ, Bool.toNat_false, Nat.mul_zero, Nat.add_zero]
      ring
    · simp only [if_true, embed_mul hζ, embed_sqr hζ, Bool.toNat_true, Nat.mul_one]
      ring

/-- R72 computes the power by the number that the exponent's bits stand for. -/
theorem embed_fieldPow (a x : Elem) (len : ℕ) : embed ζ (fieldPow a x len) = embed ζ a ^ (x.toNat % 2 ^ len) := by
  rw [fieldPow, powWith, embed_powLoop hζ]
  cases len with
  | zero => simp [powFirst, elemOps_one, Nat.mod_one, embed_one hζ]
  | succ n =>
    simp only [powFirst]
    rw [toNat_mod_two_pow_succ, elemOps_mul, elemOps_one]
    cases x.getLsbD n
    · simp [embed_one hζ]
    · simp only [if_true, embed_mul hζ, embed_one hζ, Bool.toNat_true, Nat.mul_one]
      ring

/-- A doubling step of R76: from `a^(2^k - 1)` to `a^(2^(2k) - 1)`. -/
theorem embed_double {a beta : Elem} {k : ℕ} (h : embed ζ beta = embed ζ a ^ (2 ^ k - 1)) :
    embed ζ (fieldMul (fieldSqr^[k] beta) beta) = embed ζ a ^ (2 ^ (2 * k) - 1) := by
  rw [embed_mul hζ, embed_sqr_iterate hζ, h, ← pow_mul, ← pow_add]
  congr 1
  have : 1 ≤ 2 ^ k := Nat.one_le_two_pow
  rw [Nat.sub_mul, two_mul, pow_add]
  have : 2 ^ k ≤ 2 ^ k * 2 ^ k := Nat.le_mul_of_pos_left _ (by omega)
  omega

/-- A chain position of R76 keeps `beta = a^(2^k - 1)`. -/
theorem embed_chainStep {a : Elem} {w : Elem × ℕ} (bit : Bool) (h : embed ζ w.1 = embed ζ a ^ (2 ^ w.2 - 1)) :
    embed ζ (chainStep elemOps a bit w).1 = embed ζ a ^ (2 ^ (chainStep elemOps a bit w).2 - 1) := by
  obtain ⟨beta, k⟩ := w
  have hd : embed ζ (fieldMul (fieldSqr^[k] beta) beta) = embed ζ a ^ (2 ^ (2 * k) - 1) := embed_double hζ h
  rw [chainStep_eq, elemOps_mul, elemOps_sqr]
  cases bit
  · simp only [Bool.false_eq_true, if_false]
    rw [hd]
  · simp only [if_true]
    rw [embed_mul hζ, embed_sqr hζ, hd, ← pow_mul, ← pow_succ]
    congr 1
    have : 1 ≤ 2 ^ (2 * k) := Nat.one_le_two_pow
    rw [pow_succ]
    omega

/-- R76 computes `a^(2^233 - 2)`. -/
theorem embed_fieldInv (a : Elem) : embed ζ (fieldInv a) = embed ζ a ^ (2 ^ 233 - 2) := by
  have hloop : ∀ (l : List Bool) (w : Elem × ℕ), embed ζ w.1 = embed ζ a ^ (2 ^ w.2 - 1) →
      embed ζ (l.foldl (fun w bit => chainStep elemOps a bit w) w).1 =
        embed ζ a ^ (2 ^ (l.foldl (fun w bit => chainStep elemOps a bit w) w).2 - 1) := by
    intro l
    induction l with
    | nil => exact fun _ h => h
    | cons bit l ih => exact fun w h => ih _ (embed_chainStep hζ bit h)
  have hk : ((chain.drop 1).foldl (fun w bit => chainStep elemOps a bit w) (a, 1)).2 = 232 := by
    simp [chain, chainStep]
  rw [fieldInv, itohTsujiiWith, elemOps_sqr, embed_sqr hζ, chainLoop, hloop _ _ (by simp), hk, ← pow_mul]
  congr 1

/-- A value other than 0 to the power `2^233 - 1` (R78). -/
theorem embed_pow_order {a : Elem} (h : a ≠ ZERO) : embed ζ a ^ (2 ^ 233 - 1) = 1 := by
  refine mul_right_cancel₀ (embed_ne_zero hζ h) ?_
  rw [← pow_succ, one_mul]
  exact embed_pow_card hζ a

end

/-- Elements with equal values in every such field are equal. -/
theorem eq_of_embed {a b : Elem} (h : ∀ (K : Type) (_ : Field K) (_ : CharP K 2) (ζ : K), IsPrimitiveRoot ζ 467 →
    embed ζ a = embed ζ b) : a = b := by
  obtain ⟨K, i1, i2, ζ, hζ⟩ := exists_field
  exact embed_injective hζ (h K i1 i2 ζ hζ)

end Sys2Proof.Machine
end

