-- ==== Sys2Proof/Laws/Safety.lean ====
section
/-! SUPPORT. Writing an element register, in the claims' terms, and what a commit does to definedness (R18). -/
namespace Sys2Proof.Machine
variable (s : State) (rd r : Reg) (v : Elem)

/-- A register write is what `WritesElement` says. -/
theorem writesElement_writeReg : WritesElement s (s.writeReg rd v) rd v where
  value := reg_writeReg_self s rd v
  defined := isDefined_writeReg_self s rd v
  others := fun r h => ⟨reg_writeReg_ne s r rd v h, isDefined_writeReg_ne s r rd v h⟩
  trace := rfl
  ill := rfl
  dom := rfl
  dout := rfl
  inFlight := rfl
  din := rfl
  host := rfl

/-- No effect undefines a register. -/
theorem isDefined_commit (x : Effect) (h : s.isDefined r = true) : (s.commit x).isDefined r = true := by
  cases x with
  | element rd v => exact isDefined_writeReg_mono s r rd v h
  | error k => cases k <;> exact h
  | _ => exact h

end Sys2Proof.Machine
end

