-- ==== Sys2Proof/Tests/Slice0.lean ====
section
/-! SUPPORT. Tests, each about one step, with expected values from spec/95_test_vectors.md (the section is named with each),
and the witnesses: for every obligation with hypotheses, a concrete state and operands that meet them. -/

set_option Elab.async false

namespace Sys2Proof.Tests
open Sys2Proof Sys2Proof.Machine

/-! ## Helpers -/

/-- The named inputs of 95_test_vectors.md. -/
def a : Elem := 0x123456789#233
def b : Elem := 0xABCDEF012#233

/-- The state after reset with these element registers written. -/
def regs (l : List (Reg × Elem)) : State := l.foldl (fun s p => s.writeReg p.1 p.2) State.reset

/-- The state with the host offering this word, and this value on `din`. -/
def offering (w : Word) (din : Elem) (s : State) : State := { s with host := [.command w din] }

/-- One step that issues this word. -/
def issue (w : Word) (s : State) : Result := step (offering w ZERO s)

/-- What a step leaves, seen through a view of the state. -/
def view {α : Type} (f : State → α) : Result → Option α
  | .next s => some (f s)
  | .fault _ => none
  | .refused _ => none

/-- The model fault a step stops with. -/
def stop : Result → Option Fault
  | .next _ => none
  | .fault r => some r
  | .refused _ => none

/-- Eight defined registers: e0 to e2 hold a, b, ONE, the others ZERO. -/
def full : State := regs [(0, a), (1, b), (2, ONE), (3, ZERO), (4, ZERO), (5, ZERO), (6, ZERO), (7, ZERO)]

/-! ## Well-formedness and decoding -/

/-- R41: `len` is at most 233. It is the one check; every other operand is legal at every value. -/
theorem test_illformed_pow_refused :
    Instr.wellFormed (.pow 0 0 0 234#8) = false ∧ Instr.wellFormed (.pow 0 0 0 255#8) = false := by decide
theorem test_wellformed_pow_233 : Instr.wellFormed (.pow 7 7 7 233#8) = true := by decide
theorem test_wellformed_rot_255 : Instr.wellFormed (.rot 7 7 255#8) = true := by decide

/-- 2.1, each command's word. -/
theorem test_decode_nop : decode 0x00000000#32 = .ok .nop := by decide +kernel
theorem test_decode_ld : decode 0x16000000#32 = .ok (.ld 3) := by decide +kernel
theorem test_decode_st : decode 0x20C00000#32 = .ok (.st 3) := by decide +kernel
theorem test_decode_clr : decode 0x30000000#32 = .ok .clr := by decide +kernel
theorem test_decode_add : decode 0x44080000#32 = .ok (.add 2 0 1) := by decide +kernel
theorem test_decode_add_345 : decode 0x44E00000#32 = .ok (.add 2 3 4) := by decide +kernel
theorem test_decode_sqr : decode 0x52000000#32 = .ok (.sqr 1 0) := by decide +kernel
theorem test_decode_rot : decode 0x6007F800#32 = .ok (.rot 0 0 255#8) := by decide +kernel
theorem test_decode_trc : decode 0x70000000#32 = .ok (.trc 0) := by decide +kernel
theorem test_decode_mul : decode 0x84080000#32 = .ok (.mul 2 0 1) := by decide +kernel
theorem test_decode_pow : decode 0x94081000#32 = .ok (.pow 2 0 1 2#8) := by decide +kernel
theorem test_decode_pow_233 : decode 0x90074800#32 = .ok (.pow 0 0 0 233#8) := by decide +kernel
theorem test_decode_inv : decode 0xA2000000#32 = .ok (.inv 1 0) := by decide +kernel

/-- 2.1, the rows marked Illegal, each with the cause that its note gives. -/
theorem test_decode_reserved_fields :
    ([0x00000800, 0x00000001, 0x11000000, 0x26000000, 0x30000001, 0x44080001, 0x44080800, 0x52080000, 0x62080000,
      0x72000000, 0xA2080000] : List Word).all (fun w => decode w == .error .reservedField) = true := by decide +kernel
theorem test_decode_exponent_too_long :
    ([0x90075000, 0x9007F800] : List Word).all (fun w => decode w == .error .exponentTooLong) = true := by decide +kernel
theorem test_decode_reserved_opcodes :
    ([0xB0000000, 0xC2080000, 0xFFFFFFFF] : List Word).all (fun w => decode w == .error .reservedOpcode) = true := by
  decide +kernel
theorem test_decode_table_word :
    decodeTableWord 32 0x16000000 = some (.ld 3) ∧ decodeTableWord 32 0x26000000 = none := by decide +kernel

/-! ## One step of each command -/

/-- 2.2. -/
theorem test_nop_unchanged : view id (issue 0x00000000#32 (regs [(3, ONE)])) = some (regs [(3, ONE)]) := by decide +kernel
theorem test_ld_e3 : view (fun s => (s.reg 3, s.isDefined 3, s.isDefined 2)) (step (offering 0x16000000#32 a State.reset)) =
    some (a, true, false) := by decide +kernel
theorem test_st_e3 : view (·.dout) (issue 0x20C00000#32 (regs [(3, 1#233)])) = some 1#233 := by decide +kernel
theorem test_st_undefined : stop (issue 0x20C00000#32 State.reset) = some (.uninit 3) := by decide +kernel
theorem test_clr_keeps_t :
    view (·.status) (issue 0x30000000#32 { State.reset with t := true, ill := true, dom := true }) = some 0x00000002#32 := by
  decide +kernel
theorem test_illegal_clr_clears_nothing :
    view (·.status) (issue 0x30000001#32 { State.reset with dom := true }) = some 0x00000300#32 := by decide +kernel

/-- 2.3, rows ONE + e(0) and the aliasing note. -/
theorem test_add_one_e0 : view (·.reg 2) (issue 0x44080000#32 (regs [(0, ONE), (1, 1#233)])) =
    some 0x1FFFFFFFFFFFFFFFFFFFFFFFFFFFFFFFFFFFFFFFFFFFFFFFFFFFFFFFFFE#233 := by decide +kernel
theorem test_add_alias : view (fun s => (s.reg 0, s.reg 1)) (issue 0x40080000#32 (regs [(0, a), (1, b)])) =
    some (0xB9F9B979B#233, b) := by decide +kernel

/-- 2.4, the wrap of index 0, and `SQR e0, e0`. -/
theorem test_sqr_wrap : view (fun s => (s.reg 1, s.reg 0)) (issue 0x52000000#32 (regs [(0, 1#233)])) =
    some (0x10000000000000000000000000000000000000000000000000000000000#233, 1#233) := by decide +kernel
theorem test_sqr_alias : view (·.reg 0) (issue 0x50000000#32 (regs [(0, a)])) =
    some 0x10000000000000000000000000000000000000000000000000091A2B3C4#233 := by decide +kernel

/-- 2.5, k = 255 acts as 22, and index 232 wraps to 0. -/
theorem test_rot_255 : view (·.reg 1) (issue 0x6207F800#32 (regs [(0, a)])) = some 0x48D159E2400000#233 := by
  decide +kernel
theorem test_rot_wrap : view (·.reg 1) (issue 0x62000800#32 (regs [(0, basisElem 232)])) = some 1#233 := by decide +kernel

/-- 2.6: only T changes. -/
theorem test_trc_a : view (·.status) (issue 0x70000000#32 (regs [(0, a)])) = some 0x00000002#32 := by decide +kernel
theorem test_trc_zero_keeps_errors :
    view (·.status) (issue 0x70000000#32 { regs [(0, ZERO)] with t := true, ill := true, dom := true }) =
      some 0x00000300#32 := by decide +kernel

/-- 2.8, the hand-checked row e(232), e(231), and the general product of a and b. -/
theorem test_mul_basis : view (·.reg 2) (issue 0x84080000#32 (regs [(0, basisElem 232), (1, basisElem 231)])) =
    some 0x10000000000000000000000000000000000000000000000000000008000#233 := by decide +kernel
theorem test_mul_a_b : view (·.reg 2) (issue 0x84080000#32 (regs [(0, a), (1, b)])) =
    some 0x1F3A8AE651EAAB50C327DD21DABBDE7C71450A19ED9469D5020C2BDA281#233 := by decide +kernel

/-- 2.9, bits at index len and above are ignored, and the empty exponent of ZERO. -/
theorem test_pow_ignores_high_bits : view (·.reg 2) (issue 0x94081000#32 (regs [(0, a), (1, 0xF#233)])) =
    some 0x0129825285B70D647B06B179C374B0C7004B564F5F667073B7C91DBDD3C#233 := by decide +kernel
theorem test_pow_empty : view (·.reg 2) (issue 0x94080000#32 (regs [(0, ZERO), (1, ZERO)])) = some ONE := by decide +kernel

/-- 2.10, e(232), and DOMAIN with rd = rs1. -/
theorem test_inv_e232 : view (·.reg 1) (issue 0xA2000000#32 (regs [(0, basisElem 232)])) =
    some 0x180CA7F4612C1F1BF2F64E2DB9D456B3CD8E42823D7DD2A44D5C34C40BB#233 := by decide +kernel
theorem test_inv_zero : view (fun s => (s.reg 0, s.isDefined 0, s.status)) (issue 0xA0000000#32 (regs [(0, ZERO)])) =
    some (ZERO, true, 0x00000200#32) := by decide +kernel

/-- 2.11, priority. -/
theorem test_illegal_before_uninit : view (·.status) (issue 0xA2000001#32 State.reset) = some 0x00000100#32 := by
  decide +kernel
theorem test_illegal_before_domain : view (·.status) (issue 0xA2000001#32 (regs [(0, ZERO)])) = some 0x00000100#32 := by
  decide +kernel
theorem test_uninit_before_domain : stop (issue 0xA2000000#32 State.reset) = some (.uninit 0) := by decide +kernel
theorem test_uninit_rs1_first : stop (issue 0x44E00000#32 State.reset) = some (.uninit 3) := by decide +kernel
theorem test_uninit_rs2 : stop (issue 0x44E00000#32 (regs [(3, ZERO)])) = some (.uninit 4) := by decide +kernel

/-- 2.7, rows of Λ, and 2.8, round bits 0, 1 and 232 of `MulRounds(a, b)`: the product's coefficients 232, 0 and 231. -/
theorem test_matrix_rows : markedColumns 0 = [1] ∧ markedColumns 16 = [17, 18] ∧ markedColumns 232 = [216, 232] := by
  decide +kernel
theorem test_round_bits : (mulRound (mulStart a b)).o.getLsbD 0 = true ∧
    (mulRound (mulRound (mulStart a b))).o.getLsbD 1 = true := by decide +kernel

/-- X9: strings "1", "10" and one with a '2'. -/
theorem test_strings : elemOfString ['1'] = .ok 1#233 ∧ elemOfString ['1', '0'] = .ok 2#233 ∧
    elemOfString ['1', '2'] = .error .badCharacter := by decide +kernel

/-- R46: lower case, hexadecimal and a comment; the `.word` directive; R47's SQRN. -/
theorem test_assemble_rot : assembleText "rot e1, e0, 0x8 ; eight".toList = .line (.instr (.rot 1 0 8#8)) := by
  decide +kernel
theorem test_assemble_pow_too_long : assembleText "POW e2, e0, e1, 234".toList = .rejected := by decide +kernel
theorem test_assemble_word : assembleText ".word 0x90075000".toList = .line (.word 0x90075000#32) := by decide +kernel
theorem test_expand_sqrn : (Pseudo.sqrn 1 0 1).expand = .rot 1 0 232#8 := by decide +kernel

/-! ## The clock level -/

/-- A machine with LAT 2 for every command, whose engines do 233 rounds on every busy edge. -/
def timing2 : Config.Timing where
  lat := fun _ _ _ => 2
  pace := fun _ _ _ _ => 233
  lat_pos := fun _ _ _ => by decide

/-- The host offering a word at an edge. -/
def drive (w : Word) : Pins := ⟨true, true, w, ZERO⟩
/-- The host offering nothing at an edge. -/
def rest : Pins := ⟨true, false, 0#32, ZERO⟩

/-- R29: LD takes the `din` of its accepting edge, whatever is driven later; NOP samples none. -/
theorem test_ld_samples_at_acceptance :
    view (fun s => (s.reg 3, s.busy)) (edges timing2 [⟨true, true, 0x16000000#32, a⟩, ⟨true, false, 0#32, b⟩, rest] State.reset) =
      some (a, false) := by decide +kernel
theorem test_nop_samples_nothing : view id (step (offering 0x00000000#32 a full)) = some full := by decide +kernel

/-- R21, R94: BUSY and the old DOUT after one edge; the new DOUT and BUSY 0 after LAT more. -/
theorem test_st_is_busy : view (fun s => (s.busy, s.dout)) (edges timing2 [drive 0x20000000#32, rest] (regs [(0, a)])) =
    some (true, ZERO) := by decide +kernel
theorem test_st_completes :
    view (fun s => (s.busy, s.dout)) (edges timing2 [drive 0x20000000#32, rest, rest] (regs [(0, a)])) =
      some (false, a) := by decide +kernel

/-! ## Witnesses -/

/-- For DecodeOfEncodeIsInstruction, AssemblerReadsEveryCommandLine: operands at the top of their ranges. -/
theorem witness_wellFormed : Instr.wellFormed (.pow 7 7 7 233#8) = true ∧ Instr.wellFormed (.rot 7 7 255#8) = true := by
  decide
/-- For LegalWordIsEncodingOfItsInstruction. -/
theorem witness_LegalWordIsEncodingOfItsInstruction : decode 0x90074800#32 = .ok (.pow 0 0 0 233#8) := by decide +kernel

/-- For WordIsCommandExactlyByMatchAndMask: both sides of POW's condition at its boundary. -/
theorem witness_WordIsCommandExactlyByMatchAndMask :
    ((0x90074800#32 : Word) &&& 0xF00007FF#32 = 0x90000000#32 ∧ ((0x90074800#32 : Word).extractLsb' 11 8).toNat = 233) ∧
    ((0x90075000#32 : Word) &&& 0xF00007FF#32 = 0x90000000#32 ∧ ((0x90075000#32 : Word).extractLsb' 11 8).toNat = 234) := by
  decide +kernel

/-- For DecodedOperandsAreTheirFields: each clause, with every field at its largest value. -/
theorem witness_DecodedOperandsAreTheirFields :
    decode 0x1E000000#32 = .ok (.ld 7) ∧ decode 0x21C00000#32 = .ok (.st 7) ∧ decode 0x71C00000#32 = .ok (.trc 7) ∧
    decode 0x5FC00000#32 = .ok (.sqr 7 7) ∧ decode 0xAFC00000#32 = .ok (.inv 7 7) ∧
    decode 0x4FF80000#32 = .ok (.add 7 7 7) ∧ decode 0x8FF80000#32 = .ok (.mul 7 7 7) ∧
    decode 0x6FC7F800#32 = .ok (.rot 7 7 255#8) ∧ decode 0x9FFF4800#32 = .ok (.pow 7 7 7 233#8) := by decide +kernel

/-- An idle block offered a legal word, with its sources defined or not, and one offered an illegal word, so for
StepRunsDecodedInstruction, WordIsIllegalExactlyByItsCauses, IllegalWordSetsIllOnly, IllegalBeforeUninitBeforeDomain. -/
theorem witness_offered_words :
    (offering 0x44080000#32 ZERO full).inFlight = none ∧
    (offering 0x44080000#32 ZERO full).host = [.command 0x44080000#32 ZERO] ∧
    decode 0x44080000#32 = .ok (.add 2 0 1) ∧
    (sources (.add 2 0 1)).find? (fun r => !State.reset.isDefined r) = some 0 ∧
    decode 0xFFFFFFFF#32 = .error .reservedOpcode ∧ decode 0x9007F800#32 = .error .exponentTooLong ∧
    decode 0x00000001#32 = .error .reservedField := by decide +kernel

/-- For NopChangesNothing, ClrClearsBothErrors, PowWritesSquareAndMultiply: illegal words of opcodes 0x0, 0x3 and 0x9. -/
theorem witness_illegal_spellings :
    ((0x00000001#32 : Word).extractLsb' 28 4 = 0x0#4 ∧ (0x00000001#32 : Word) ≠ 0x00000000#32) ∧
    ((0x30000001#32 : Word).extractLsb' 28 4 = 0x3#4 ∧ (0x30000001#32 : Word) ≠ 0x30000000#32) ∧
    ((0x90075000#32 : Word).extractLsb' 28 4 = 0x9#4 ∧ 233 < ((0x90075000#32 : Word).extractLsb' 11 8).toNat) := by
  decide +kernel

/-- For ConventionsOfTheStep, each clause. -/
theorem witness_ConventionsOfTheStep :
    State.reset.inFlight = none ∧ State.reset.host = [] ∧ decode 0x16000000#32 = .ok (.ld 3) ∧ 233 < (234#8).toNat := by
  decide +kernel

/-- For CommandStopsExactlyOnFirstUndefinedSource: an undefined rs1, an undefined rs2, and neither. -/
theorem witness_CommandStopsExactlyOnFirstUndefinedSource :
    Instr.wellFormed (.mul 2 0 1) = true ∧
    (sources (.mul 2 0 1)).find? (fun r => !State.reset.isDefined r) = some 0 ∧
    (sources (.mul 2 0 1)).find? (fun r => !(regs [(0, a)]).isDefined r) = some 1 ∧
    (sources (.mul 2 0 1)).find? (fun r => !full.isDefined r) = none := by decide +kernel

/-- For IllegalBeforeUninitBeforeDomain, with witness_offered_words. -/
theorem witness_IllegalBeforeUninitBeforeDomain :
    State.reset.isDefined 0 = false ∧ (233#8).toNat ≤ 233 ∧
      ({ State.reset with host := [.reset] } : State).host = [.reset] := by decide +kernel

/-- For StWritesDout, AddWritesLanewiseXor, SqrRotatesOnePlace, RotMovesEveryCoefficient, TrcWritesParityToT,
PseudoInstructionsMeanTheirRules, MulWritesRoundProduct, PowWritesSquareAndMultiply: defined and undefined sources, and `len` at
its bounds. -/
theorem witness_sources :
    full.isDefined 0 = true ∧ full.isDefined 1 = true ∧ State.reset.isDefined 0 = false ∧
    ((regs [(0, a)]).isDefined 0 = true ∧ (regs [(0, a)]).isDefined 1 = false) ∧ (0#8).toNat ≤ 233 ∧ (233#8).toNat ≤ 233 := by
  decide +kernel

/-- For InvWritesInverseOrRaisesDomain, InversionIsTheFieldInverse, OnlyInvOfZeroRaisesDomain: INV of a value that is not ZERO, of
ZERO, and of an undefined register, with rd other than rs1. -/
theorem witness_inv :
    (full.isDefined 0 = true ∧ full.reg 0 ≠ ZERO) ∧ (full.isDefined 3 = true ∧ full.reg 3 = ZERO) ∧
    State.reset.isDefined 0 = false ∧ (1 : Reg) ≠ 0 := by decide +kernel

/-- For MultiplicationLaws, PowIsRepeatedMultiplication, InvWritesInverseOrRaisesDomain, InversionIsTheFieldInverse. -/
theorem witness_nonzero_element : ONE ≠ ZERO ∧ basisElem 0 ≠ ZERO := by decide +kernel

/-- For RotationAndSquaringRelations, MatrixTableIsTheConstructedMatrix, MatrixProperties, ProductClosedForm,
PowIsRepeatedMultiplication, SerializationRoundTrip: the indices at their bounds. -/
theorem witness_index_bounds : 0 ≤ 232 ∧ 232 ≤ 232 ∧ 0 < 233 ∧ 232 < 233 ∧ 0 < 1 ∧ 233 ≤ 233 := by decide

/-- For CommandWritesOnlyItsDestination, ElementCommandsFrame, OnlyTrcChangesTAndOnlyStChangesDout, OnlyInvOfZeroRaisesDomain,
StatusRegister, RepeatingACommandIsIdempotent: commands that complete, one that writes a register whose number is no source, one
that raises DOMAIN, one that changes T and one that changes DOUT. -/
theorem witness_completions :
    (view (·.ill) (exec (.add 2 0 1) full)).isSome = true ∧ (destination (.add 2 0 1)).isSome = true ∧
    (full.dom = false ∧ view (·.dom) (exec (.inv 1 3) full) = some true) ∧
    view (·.t) (exec (.trc 0) full) = some !full.t ∧
    (view (·.dout) (exec (.st 0) full) = some a ∧ a ≠ full.dout) ∧
    (∀ rd, destination (.add 2 0 1) = some rd → rd ∉ sources (.add 2 0 1)) := by decide +kernel

/-- For StepRunsDecodedInstruction: INV of ZERO offered. -/
theorem witness_step_domain : decode 0xA2C00000#32 = .ok (.inv 1 3) ∧ full.isDefined 3 = true ∧ full.reg 3 = ZERO ∧
    (view (·.dom) (issue 0xA2C00000#32 full)) = some true := by decide +kernel

/-- For StatusRegister: a step that keeps the sticky bits, with both set, neither a reset nor a CLR. -/
theorem witness_StatusRegister :
    (view (fun s => (s.ill, s.dom)) (issue 0x16000000#32 { full with ill := true, dom := true })) = some (true, true) := by
  decide +kernel

/-- For DefinedUntilReset. -/
theorem witness_DefinedUntilReset :
    full.isDefined 0 = true ∧ (view (·.isDefined 0) (issue 0x16000000#32 full)) = some true := by decide +kernel

/-- For ResetOverridesEverything, both clauses. -/
theorem witness_ResetOverridesEverything :
    (⟨false, true, 0#32, ZERO⟩ : Pins).rstN = false ∧ ({ full with host := [.reset] } : State).host = [.reset] := by
  decide +kernel

/-- For UndefinedValuesNeverMatter: two states that differ in the stored value of an undefined register alone. -/
theorem witness_UndefinedValuesNeverMatter :
    SameButUndefined State.reset { State.reset with e := Vector.replicate 8 ONE } ∧
    State.reset ≠ { State.reset with e := Vector.replicate 8 ONE } :=
  ⟨⟨rfl, by decide +kernel, rfl, rfl, rfl, rfl, rfl, rfl, rfl⟩, by decide +kernel⟩

/-- For BootCheckedProgramsNeverStop and EveryStepKeepsBootReady: the spec's program P1 (LD e0; INV e1, e0; MUL e2, e0, e1; ST e2;
TRC e2), then a reset, LD e3, ST e3, checked from reset, where nothing is known of any register. -/
def bootProgram : List HostAction :=
  [.command 0x10000000#32 a, .command 0xA2000000#32 ZERO, .command 0x84080000#32 ZERO, .command 0x20800000#32 ZERO,
    .command 0x70800000#32 ZERO, .reset, .command 0x16000000#32 b, .command 0x20C00000#32 ZERO]

theorem witness_bootChecked : bootChecked (Vector.replicate 8 .nothing) bootProgram = true := by decide +kernel
theorem witness_BootReady : ({ State.reset with host := bootProgram } : State).BootReady :=
  ⟨rfl, Vector.replicate 8 .nothing, fun r => by simp [Vector.get_eq_getElem, Known.Holds], witness_bootChecked⟩

/-- The other side of the check: P1 with ZERO loaded is not known to write e1, and a read of an unwritten register is refused. -/
theorem test_bootChecked_refuses :
    bootChecked (Vector.replicate 8 .nothing)
      [.command 0x10000000#32 ZERO, .command 0xA2000000#32 ZERO, .command 0x84080000#32 ZERO] = false ∧
    bootChecked (Vector.replicate 8 .nothing) [.command 0x20C00000#32 ZERO] = false := by decide +kernel

/-- For EdgesRefineTheAtomicStep: an idle block offered LD, offered MUL of defined sources, LAT - 1 and LAT edges after it, offered
an illegal word, and offered MUL of an undefined source. -/
theorem witness_EdgesRefineTheAtomicStep :
    full.inFlight = none ∧ (drive 0x84080000#32).rstN = true ∧ (drive 0x84080000#32).cmdValid = true ∧
    (∀ q ∈ [rest, drive 0xFFFFFFFF#32], q.rstN = true) ∧ decode 0x84080000#32 = .ok (.mul 2 0 1) ∧
    decode 0x16000000#32 = .ok (.ld 3) ∧
    (∀ r ∈ sources (.mul 2 0 1), full.isDefined r = true) ∧ [rest].length < timing2.lat 0x84080000#32 a b ∧
    [rest, drive 0xFFFFFFFF#32].length = timing2.lat 0x84080000#32 a b ∧
    [rest, drive 0xFFFFFFFF#32].length = timing2.lat 0x16000000#32 a ZERO ∧
    [rest, drive 0xFFFFFFFF#32].length = timing2.lat 0xFFFFFFFF#32 ZERO ZERO ∧
    decode 0xFFFFFFFF#32 = .error .reservedOpcode ∧
    (sources (.mul 2 0 1)).find? (fun r => !State.reset.isDefined r) = some 0 := by decide +kernel

/-- For DinMattersToLdAlone: a legal word other than LD and an illegal word, an idle and a busy block, edges outside reset. -/
theorem witness_DinMattersToLdAlone :
    (∀ rd, decode 0x84080000#32 ≠ .ok (.ld rd)) ∧ (∀ rd, decode 0xFFFFFFFF#32 ≠ .ok (.ld rd)) ∧
    (offering 0x84080000#32 a full).inFlight = none ∧
    (offering 0x84080000#32 a full).host = [.command 0x84080000#32 a] ∧
    (∀ f : InFlight, ({ full with inFlight := some f } : State).inFlight.isSome = true) ∧
    rest.rstN = true ∧ (drive 0x84080000#32).rstN = true :=
  ⟨by decide +kernel, by decide +kernel, by decide +kernel, by decide +kernel, fun _ => rfl, rfl, rfl⟩

/-- MUL e2, e0, e1 in flight, its engine one round after its start. -/
def mulInFlight (left : Nat) : InFlight :=
  { word := 0x84080000#32, a := a, b := b, left := left, engine := (Engine.start (.mul 2 0 1) a b).round a b }

/-- For BusyEdgeChangesNothingVisible and ReadyExactlyWhenIdle. -/
theorem witness_busy_and_idle_edges :
    rest.rstN = true ∧ ({ full with inFlight := some (mulInFlight 2) } : State).inFlight = some (mulInFlight 2) ∧
    1 < (mulInFlight 2).left ∧ rest.cmdValid = false ∧ full.inFlight = none := by decide +kernel

/-- For EdgeKeepsSound, StepKeepsSound, SoundCommandInFlightCompletesAsExec: a sound state with a command in flight, no reset
offered, and an edge and a step that answer a next state. -/
theorem witness_Sound :
    ({ full with inFlight := some (mulInFlight 1) } : State).Sound ∧ decode (mulInFlight 1).word = .ok (.mul 2 0 1) ∧
    (∀ tail, full.host ≠ .reset :: tail) ∧
    (view (·.busy) (edge timing2 rest { full with inFlight := some (mulInFlight 1) })) = some false ∧
    (view (·.busy) (step { full with inFlight := some (mulInFlight 1) })) = some false := by
  have hh : full.host = [] := by decide +kernel
  refine ⟨?_, by decide +kernel, by simp [hh], by decide +kernel, by decide +kernel⟩
  intro f hf
  cases hf
  refine ⟨by decide, ?_⟩
  have hd : decode (mulInFlight 1).word = .ok (.mul 2 0 1) := by decide +kernel
  have h0 : full.isDefined 0 = true ∧ full.isDefined 1 = true ∧ full.reg 0 = a ∧ full.reg 1 = b := by decide +kernel
  simp only [hd]
  refine ⟨fun k => ?_, 1, rfl⟩
  refine (withSources_of_defined (rs1 := 0) (rs2 := 1) h0.1 h0.2.1).trans ?_
  show k (full.reg 0) (full.reg 1) = k a b
  rw [h0.2.2.1, h0.2.2.2]

/-- For ConstructionFromString: strings of length 0 and 233, one too long, and one with a wrong character. -/
theorem witness_ConstructionFromString :
    (([] : List Char).length ≤ 233 ∧ ∀ c ∈ ([] : List Char), c = '0' ∨ c = '1') ∧
    ((List.replicate 233 '1').length ≤ 233 ∧ ∀ c ∈ List.replicate 233 '1', c = '0' ∨ c = '1') ∧
    233 < (List.replicate 234 '1').length ∧ (∃ c ∈ ['2'], c ≠ '0' ∧ c ≠ '1') :=
  ⟨⟨Nat.zero_le _, by simp⟩, ⟨by rw [List.length_replicate], fun c hc => .inr (List.eq_of_mem_replicate hc)⟩,
    by rw [List.length_replicate]; decide, '2', by simp, by decide, by decide⟩

end Sys2Proof.Tests
end

section
/-! PROOFS, the string form of an element (R15, R16): construction and serialization, coefficient by coefficient. -/
namespace Sys2Proof.Machine

/-- One more character shifts the coefficients up by one place and becomes coefficient 0 (R15). -/
theorem bitsOfString_concat (cs : List Char) (c : Char) :
    bitsOfString (cs ++ [c]) = bitsOfString cs <<< 1 ||| (if c = '1' then 1#233 else 0#233) := by
  rw [bitsOfString, List.foldl_concat, ← bitsOfString]

/-- Coefficient `i` of the constructed element is read off the `i`-th character from the right (R15), and is 0 where the
string has no such character (R16). -/
theorem getLsbD_bitsOfString (cs : List Char) {i : Nat} (hi : i < 233) :
    (bitsOfString cs).getLsbD i = decide (cs.reverse[i]? = some '1') := by
  induction cs using List.reverseRecOn generalizing i with
  | nil => simp [bitsOfString]
  | append_singleton cs c ih =>
    rw [bitsOfString_concat, BitVec.getLsbD_or, BitVec.getLsbD_shiftLeft, List.reverse_concat]
    cases i with
    | zero => by_cases hc : c = '1' <;> simp [hc]
    | succ i =>
      have hbit : (if c = '1' then 1#233 else 0#233).getLsbD (i + 1) = false := by
        split <;> simp [BitVec.getLsbD_one]
      rw [hbit, List.getElem?_cons_succ, ← ih (by omega)]
      simp [hi]

/-- A binary string that is not too long constructs its coefficients (R16). -/
theorem elemOfString_of_binary {cs : List Char} (hlen : cs.length ≤ 233) (hbin : ∀ c ∈ cs, c = '0' ∨ c = '1') :
    elemOfString cs = .ok (bitsOfString cs) := by
  rw [elemOfString, if_neg (by omega), if_pos (by simpa using hbin)]

/-- A string that is too long, or holds another character, is malformed (R16). -/
theorem elemOfString_of_malformed {cs : List Char} (h : 233 < cs.length ∨ ∃ c ∈ cs, c ≠ '0' ∧ c ≠ '1') :
    ∃ x, elemOfString cs = .error x := by
  by_cases hlen : 233 < cs.length
  · exact ⟨.tooLong, by rw [elemOfString, if_pos hlen]⟩
  · have hbad := h.resolve_left hlen
    exact ⟨.badCharacter, by rw [elemOfString, if_neg hlen, if_neg (by simpa using hbad)]⟩

@[simp] theorem length_stringOfElem (a : Elem) : (stringOfElem a).length = 233 := by
  simp [stringOfElem]

/-- Character `j` of the serialization is coefficient `232 - j` (R15). -/
theorem getElem?_stringOfElem (a : Elem) {j : Nat} (hj : j < 233) :
    (stringOfElem a)[j]? = some (if a.getLsbD (232 - j) then '1' else '0') := by
  simp [stringOfElem, hj]

/-- The serialization holds no character but 0 and 1 (R15). -/
theorem stringOfElem_binary (a : Elem) : ∀ c ∈ stringOfElem a, c = '0' ∨ c = '1' := by
  intro c hc
  obtain ⟨j, -, rfl⟩ := List.mem_map.mp hc
  split <;> simp

/-- The coefficients that construction reads from an element's serialization are the element's own. -/
theorem bitsOfString_stringOfElem (a : Elem) : bitsOfString (stringOfElem a) = a := by
  refine elem_ext fun i hi => ?_
  have hchar : (stringOfElem a).reverse[i]? = some (if a.getLsbD i then '1' else '0') := by
    rw [List.getElem?_reverse (by simpa using hi), length_stringOfElem, getElem?_stringOfElem a (by omega),
      show 232 - (233 - 1 - i) = i by omega]
  rw [getLsbD_bitsOfString _ hi, hchar]
  cases a.getLsbD i <;> simp

/-- Settles O56: the two character lemmas, and construction undoing serialization coefficient by coefficient. -/
theorem serializationRoundTrip : Obligations.SerializationRoundTrip := fun a =>
  ⟨length_stringOfElem a, fun _ hj => getElem?_stringOfElem a hj, by
    rw [elemOfString_of_binary (length_stringOfElem a).le (stringOfElem_binary a), bitsOfString_stringOfElem]⟩

/-- Settles O57: the constructed element is `bitsOfString`, whose coefficients are the characters from the right. -/
theorem constructionFromString : Obligations.ConstructionFromString := by
  refine fun cs => ⟨fun hlen hbin => ⟨_, elemOfString_of_binary hlen hbin, fun i hi => ?_, fun i hi => ?_⟩,
    elemOfString_of_malformed⟩
  · rw [getLsbD_bitsOfString cs (by omega), List.getElem?_reverse hi]
  · by_cases h : i < 233
    · simp [getLsbD_bitsOfString cs h, hi]
    · exact BitVec.getLsbD_of_ge _ _ (by omega)

end Sys2Proof.Machine
end

section
/-! PROOFS, undefined registers (R18, R48, R84): when a command stops. -/
namespace Sys2Proof.Machine

/-- Settles O10: the search for an undefined source finds the first one, or there is none. -/
theorem commandStopsExactlyOnFirstUndefinedSource : Obligations.CommandStopsExactlyOnFirstUndefinedSource := by
  refine ⟨isDefined_reset, isDefined_writeReg_self, fun i s hw => ?_⟩
  cases h : (sources i).find? fun r => !s.isDefined r with
  | some r => exact .inl ⟨r, rfl, exec_of_undefined hw h⟩
  | none =>
    have hd : SourcesDefined i s := by simpa [SourcesDefined] using h
    exact .inr ⟨hd, _, exec_of_defined hw hd⟩

end Sys2Proof.Machine
end

section
/-! PROOFS, the flags and the output register (R18 to R22): what an effect, a command and a step can do to T, DOUT, ILL and
DOM, and what STATUS shows of them. -/
namespace Sys2Proof.Machine
variable {i : Instr} {s t : State}

/-- INV raises DOMAIN or writes its register, and does nothing else (R75). -/
theorem invEffect_cases (rd : Reg) (a c : Elem) :
    invEffect rd a c = .error .domain ∨ invEffect rd a c = .element rd c := by
  unfold invEffect
  split
  · exact .inl rfl
  · exact .inr rfl

/-- Only TRC writes T (R19). -/
theorem commit_effectOf_t (hi : ∀ rs1, i ≠ .trc rs1) (a b : Elem) : (s.commit (effectOf i a b)).t = s.t := by
  cases i with
  | trc rs1 => exact absurd rfl (hi rs1)
  | inv rd rs1 => obtain h | h := invEffect_cases rd a (fieldInv a) <;> simp [effectOf, h]
  | _ => rfl

/-- Only ST writes DOUT (R22). -/
theorem commit_effectOf_dout (hi : ∀ rs1, i ≠ .st rs1) (a b : Elem) :
    (s.commit (effectOf i a b)).dout = s.dout := by
  cases i with
  | st rs1 => exact absurd rfl (hi rs1)
  | inv rd rs1 => obtain h | h := invEffect_cases rd a (fieldInv a) <;> simp [effectOf, h]
  | trc rs1 => simp [effectOf, trcEffect]
  | _ => rfl

/-- R19: a command that completes with T changed is TRC. -/
theorem eq_trc_of_exec_t_ne (h : exec i s = .next t) (ht : t.t ≠ s.t) : ∃ rs1, i = .trc rs1 := by
  by_contra! hi
  obtain ⟨-, rfl⟩ | ⟨-, rfl⟩ := exec_next h
  · exact ht (commit_effectOf_t hi _ _)
  · exact ht (raise_t s .illegal)

/-- R22: a command that completes with DOUT changed is ST. -/
theorem eq_st_of_exec_dout_ne (h : exec i s = .next t) (hdout : t.dout ≠ s.dout) : ∃ rs1, i = .st rs1 := by
  by_contra! hi
  obtain ⟨-, rfl⟩ | ⟨-, rfl⟩ := exec_next h
  · exact hdout (commit_effectOf_dout hi _ _)
  · exact hdout (raise_dout s .illegal)

/-- R59: a TRC that completes writes T alone. -/
theorem exec_trc_next {rs1 : Reg} (h : exec (.trc rs1) s = .next t) : t = { s with t := fieldTrace (s.reg rs1) } := by
  obtain ⟨-, rfl⟩ | ⟨hw, -⟩ := exec_next h
  · rfl
  · cases hw

/-- R51: an ST that completes writes DOUT alone. -/
theorem exec_st_next {rs1 : Reg} (h : exec (.st rs1) s = .next t) : t = { s with dout := s.reg rs1 } := by
  obtain ⟨-, rfl⟩ | ⟨hw, -⟩ := exec_next h
  · rfl
  · cases hw

/-- R20: STATUS, bit by bit: which of its six parts holds bit `n`, and which bit of the part it is. -/
theorem getLsbD_status (s : State) (n : Nat) : s.status.getLsbD n =
    if n = 0 then s.busy else if n = 1 then s.t else if n = 8 then s.ill else if n = 9 then s.dom else false := by
  simp only [State.status, BitVec.getLsbD_append, BitVec.getLsbD_ofBool, BitVec.getLsbD_zero]
  grind

/-- R20: the error bits are sticky. No effect but CLR's turns one back to 0. -/
theorem errors_sticky_commit {x : Effect} (hx : x ≠ .clear) :
    (s.ill = true → (s.commit x).ill = true) ∧ (s.dom = true → (s.commit x).dom = true) := by
  cases x with
  | clear => exact absurd rfl hx
  | error k => cases k <;> simp
  | _ => exact ⟨id, id⟩

theorem invEffect_ne_clear (rd : Reg) (a c : Elem) : invEffect rd a c ≠ .clear := by
  obtain h | h := invEffect_cases rd a c <;> simp [h]

/-- Of the commands, CLR alone has the effect of clearing the error bits (R52). -/
theorem effectOf_ne_clear (hi : i ≠ .clr) (a b : Elem) : effectOf i a b ≠ .clear := by
  cases i with
  | clr => exact absurd rfl hi
  | inv rd rs1 => exact invEffect_ne_clear _ _ _
  | _ => exact Effect.noConfusion

theorem effectInFlight_ne_clear (hi : i ≠ .clr) (f : InFlight) : effectInFlight i f ≠ .clear := by
  cases i with
  | clr => exact absurd rfl hi
  | inv rd rs1 => exact invEffect_ne_clear _ _ _
  | _ => exact Effect.noConfusion

/-- Of the words in flight, CLR's alone has the effect of clearing the error bits (R52). -/
theorem effect_ne_clear {f : InFlight} (hf : decode f.word ≠ .ok .clr) : f.effect ≠ .clear := by
  unfold InFlight.effect
  split
  · exact effectInFlight_ne_clear (fun hi => hf (by simp_all)) f
  · exact Effect.noConfusion

/-- A command other than CLR keeps the error bits that are set (R20). -/
theorem errors_sticky_exec (h : exec i s = .next t) (hi : i ≠ .clr) :
    (s.ill = true → t.ill = true) ∧ (s.dom = true → t.dom = true) := by
  obtain ⟨-, rfl⟩ | ⟨-, rfl⟩ := exec_next h
  · exact errors_sticky_commit (effectOf_ne_clear hi _ _)
  · exact errors_sticky_commit (x := .error .illegal) Effect.noConfusion

/-- R20: a step that answers a next state took a reset, or completed a CLR that was in flight or is accepted now, or kept
the error bits that were set. -/
theorem errors_sticky_step (h : step s = .next t) :
    (∃ rest, s.host = .reset :: rest) ∨
    (∃ f, s.inFlight = some f ∧ decode f.word = .ok .clr) ∨
    (∃ w din rest, s.inFlight = none ∧ s.host = .command w din :: rest ∧ decode w = .ok .clr) ∨
    ((s.ill = true → t.ill = true) ∧ (s.dom = true → t.dom = true)) := by
  obtain ⟨rest, hh, -⟩ | ⟨f, hf, rfl⟩ | ⟨-, -, rfl⟩ | ⟨w, din, rest, x, -, -, -, rfl⟩ |
    ⟨w, din, rest, i, hf, hh, hd, he⟩ := step_next h
  · exact .inl ⟨rest, hh⟩
  · by_cases hclr : decode f.word = .ok .clr
    · exact .inr (.inl ⟨f, hf, hclr⟩)
    · exact .inr (.inr (.inr (errors_sticky_commit (effect_ne_clear hclr))))
  · exact .inr (.inr (.inr ⟨id, id⟩))
  · exact .inr (.inr (.inr (errors_sticky_commit (s := s.acceptHead rest) (x := .error .illegal) Effect.noConfusion)))
  · by_cases hclr : i = .clr
    · exact .inr (.inr (.inl ⟨w, din, rest, hf, hh, hclr ▸ hd⟩))
    · exact .inr (.inr (.inr (by simpa using errors_sticky_exec he hclr)))

/-- Settles O36: STATUS bit by bit, T by its frame, and the stickiness of the error bits step by step. -/
theorem statusRegister : Obligations.StatusRegister := by
  refine ⟨fun s => ⟨getLsbD_status s 0, getLsbD_status s 1, getLsbD_status s 8, getLsbD_status s 9, ?_⟩, by decide,
    fun i s t => eq_trc_of_exec_t_ne, fun s t => errors_sticky_step⟩
  intro n h0 h1 h8 h9
  rw [getLsbD_status, if_neg h0, if_neg h1, if_neg h8, if_neg h9]

/-- Settles O39: the frames of T and DOUT, and what TRC and ST write. -/
theorem onlyTrcChangesTAndOnlyStChangesDout : Obligations.OnlyTrcChangesTAndOnlyStChangesDout := by
  refine ⟨fun i s t h => ⟨eq_trc_of_exec_t_ne h, ?_, eq_st_of_exec_dout_ne h, ?_⟩, fun s => getLsbD_status s 1, rfl, rfl⟩
  · rintro rs1 rfl
    rw [exec_trc_next h]
  · rintro rs1 rfl
    rw [exec_st_next h]

end Sys2Proof.Machine
end

section
/-! PROOFS, the decoder (R40 to R45): which words decode, and what they decode to. -/
namespace Sys2Proof

/-- R42 to R45: a word decodes to the instruction its opcode stands for, and to no other, when it agrees with the opcode's match
under its mask and, for POW, `imm8` is at most 233. -/
theorem decode_eq_ok_iff {w : Word} {i : Instr} : decode w = .ok i ↔
    ∃ row, opRow (opField w) = some row ∧ instrOf (opField w) (fieldsOf w) = some i ∧
      w &&& row.mask = row.matchBits ∧ (opField w = 0x9#4 → (fieldsOf w).imm8.toNat ≤ 233) := by
  have hlen : (opField w = 0x9#4 → (fieldsOf w).imm8.toNat ≤ 233) ↔
      ¬ (opField w = 0x9#4 ∧ 233 < (fieldsOf w).imm8.toNat) := by simp
  rw [hlen, decode]
  cases opRow (opField w) with
  | none => simp
  | some row =>
    cases instrOf (opField w) (fieldsOf w) with
    | none => simp
    | some j =>
      simp only [Option.some.injEq, exists_eq_left']
      split_ifs with hmask hlong
      · simp [hmask]
      · simp [hlong]
      · simp [not_not.1 hmask, hlong]

/-- Every word decodes or is illegal (R45). -/
theorem decode_isError_iff {w : Word} : (∃ x, decode w = .error x) ↔ ¬ ∃ i, decode w = .ok i := by
  cases decode w <;> simp

/-- R42: the opcodes with a row are those below 0xB. -/
theorem exists_opRow_iff : ∀ op : BitVec 4, (∃ row, opRow op = some row) ↔ op.toNat < 0xB := by
  simp only [← Option.isSome_iff_exists]
  decide

/-- R42: the opcodes that stand for a command are those below 0xB, whatever the operand fields. -/
theorem exists_instrOf_iff (op : BitVec 4) (f : Fields) : (∃ i, instrOf op f = some i) ↔ op.toNat < 0xB := by
  unfold instrOf
  split <;> simp_all
  omega

/-- R43, R45: a word decodes to some command exactly when it matches its opcode's row and, for POW, `imm8` is at most 233. -/
theorem exists_decode_iff (w : Word) : (∃ i, decode w = .ok i) ↔
    ∃ row, opRow (opField w) = some row ∧ w &&& row.mask = row.matchBits ∧
      (opField w = 0x9#4 → (fieldsOf w).imm8.toNat ≤ 233) := by
  constructor
  · rintro ⟨i, hi⟩
    obtain ⟨row, hr, -, h⟩ := decode_eq_ok_iff.1 hi
    exact ⟨row, hr, h⟩
  · rintro ⟨row, hr, h⟩
    obtain ⟨i, hi⟩ := (exists_instrOf_iff _ (fieldsOf w)).2 ((exists_opRow_iff _).1 ⟨row, hr⟩)
    exact ⟨i, decode_eq_ok_iff.2 ⟨row, hr, hi, h⟩⟩

/-! ### The rows of the opcode table (R43) -/

/-- The mnemonic of an opcode, whose operand fields have no part in it (R42). -/
def opMnemonic (op : BitVec 4) : Option String := (instrOf op ⟨0, 0, 0, 0#8⟩).map Instr.mnemonic

theorem opMnemonic_of_instrOf {op : BitVec 4} {f : Fields} {i : Instr} (h : instrOf op f = some i) :
    opMnemonic op = some i.mnemonic := by
  suffices hf : (instrOf op f).map Instr.mnemonic = opMnemonic op by rw [← hf, h, Option.map_some]
  unfold opMnemonic instrOf
  split <;> rfl

theorem opMnemonic_of_decode {w : Word} {i : Instr} (h : decode w = .ok i) :
    opMnemonic (opField w) = some i.mnemonic := by
  obtain ⟨row, -, hi, -⟩ := decode_eq_ok_iff.1 h
  exact opMnemonic_of_instrOf hi

/-- No two opcodes share a mnemonic (R42). -/
theorem opMnemonic_inj : ∀ {op op' : BitVec 4} {m : String},
    opMnemonic op = some m → opMnemonic op' = some m → op = op' := by
  have hinj : ∀ op op' : BitVec 4, (opMnemonic op).isSome → opMnemonic op = opMnemonic op' → op = op' := by
    decide
  intro op op' m h h'
  exact hinj op op' (by simp [h]) (h.trans h'.symm)

/-- R43: every mask keeps the whole opcode, and the match holds the row's own. -/
theorem opField_of_opRow : ∀ op : BitVec 4, ∀ row ∈ opRow op,
    opField row.mask = BitVec.allOnes 4 ∧ opField row.matchBits = op := by decide

/-- A word that agrees with a row's match under its mask has the row's opcode (R43). -/
theorem opField_of_masked {op : BitVec 4} {row : OpRow} {w : Word} (hr : opRow op = some row)
    (h : w &&& row.mask = row.matchBits) : opField w = op := by
  obtain ⟨hmask, hmatch⟩ := opField_of_opRow op row hr
  calc opField w = opField w &&& opField row.mask := by rw [hmask, BitVec.and_allOnes]
    _ = opField (w &&& row.mask) := BitVec.extractLsb'_and.symm
    _ = op := by rw [h, hmatch]

/-- R43: the words that decode to a command of this mnemonic are those that match its opcode's row. -/
theorem decodesTo_mnemonic_iff {op : BitVec 4} {row : OpRow} {m : String} (hr : opRow op = some row)
    (hm : opMnemonic op = some m) (w : Word) : (∃ i, decode w = .ok i ∧ i.mnemonic = m) ↔
      w &&& row.mask = row.matchBits ∧ (op = 0x9#4 → (fieldsOf w).imm8.toNat ≤ 233) := by
  constructor
  · rintro ⟨i, hi, rfl⟩
    obtain rfl : op = opField w := opMnemonic_inj hm (opMnemonic_of_decode hi)
    obtain ⟨row', hr', h⟩ := (exists_decode_iff w).1 ⟨i, hi⟩
    obtain rfl : row' = row := Option.some.inj (hr'.symm.trans hr)
    exact h
  · intro h
    obtain rfl : opField w = op := opField_of_masked hr h.1
    obtain ⟨i, hi⟩ := (exists_decode_iff w).2 ⟨row, hr, h⟩
    exact ⟨i, hi, Option.some.inj ((opMnemonic_of_decode hi).symm.trans hm)⟩

/-- Settles O3: each listed row is the row of one opcode, by its mnemonic, and POW's is that of opcode 0x9. -/
theorem wordIsCommandExactlyByMatchAndMask : Obligations.WordIsCommandExactlyByMatchAndMask := by
  intro row hrow w
  have hop : ∃ op, opRow op = some ⟨row.2.1, row.2.2⟩ ∧ opMnemonic op = some row.1 ∧ (op = 0x9#4 ↔ row.1 = "POW") := by
    revert row
    decide
  obtain ⟨op, hr, hm, hpow⟩ := hop
  rw [decodesTo_mnemonic_iff hr hm, hpow]
  rfl

/-! ### Operands (R40, R41) -/

/-- The operands of an instruction are the numbers in these fields. -/
def Fields.HoldOperandsOf (f : Fields) : Instr → Prop
  | .nop | .clr => True
  | .ld rd => rd.val = f.rd.val
  | .st rs1 | .trc rs1 => rs1.val = f.rs1.val
  | .sqr rd rs1 | .inv rd rs1 => rd.val = f.rd.val ∧ rs1.val = f.rs1.val
  | .add rd rs1 rs2 | .mul rd rs1 rs2 => rd.val = f.rd.val ∧ rs1.val = f.rs1.val ∧ rs2.val = f.rs2.val
  | .rot rd rs1 k => rd.val = f.rd.val ∧ rs1.val = f.rs1.val ∧ k.toNat = f.imm8.toNat
  | .pow rd rs1 rs2 len =>
    rd.val = f.rd.val ∧ rs1.val = f.rs1.val ∧ rs2.val = f.rs2.val ∧ len.toNat = f.imm8.toNat

/-- The command an opcode stands for takes its operands from the fields (R42). -/
theorem holdOperandsOf_of_instrOf {op : BitVec 4} {f : Fields} {i : Instr} (h : instrOf op f = some i) :
    f.HoldOperandsOf i := by
  unfold instrOf at h
  split at h <;> cases h <;> simp [Fields.HoldOperandsOf]

theorem holdOperandsOf_of_decode {w : Word} {i : Instr} (h : decode w = .ok i) : (fieldsOf w).HoldOperandsOf i := by
  obtain ⟨row, -, hi, -⟩ := decode_eq_ok_iff.1 h
  exact holdOperandsOf_of_instrOf hi

/-- Settles O4: `holdOperandsOf_of_decode`, command by command. -/
theorem decodedOperandsAreTheirFields : Obligations.DecodedOperandsAreTheirFields := by
  intro w
  have hold := @holdOperandsOf_of_decode w
  exact ⟨fun _ => hold, fun _ => hold, fun _ => hold, fun _ _ => hold, fun _ _ => hold, fun _ _ _ => hold,
    fun _ _ _ => hold, fun _ _ _ => hold, fun _ _ _ _ => hold⟩

/-! ### Illegal words (R44) -/

/-- What a row's mask keeps of a field: all of it where the opcode does not use it, else nothing (R43). -/
def keptField (n : Nat) (used : Bool) : BitVec n := if used then 0#n else BitVec.allOnes n

theorem and_keptField_eq_zero_iff {n : Nat} {used : Bool} {x : BitVec n} :
    x &&& keptField n used = 0#n ↔ (used = false → x = 0#n) := by
  cases used <;> simp [keptField]

/-- R43 against R42: a row's match is its opcode alone, and its mask keeps the opcode, the reserved bits and the fields that the
opcode does not use. -/
theorem opRow_eq_ofFields : ∀ op : BitVec 4, ∀ row ∈ opRow op,
    row.matchBits = ofFields op 0#3 0#3 0#3 0#8 0#11 ∧
    row.mask = ofFields (BitVec.allOnes 4) (keptField 3 (op.toNat ∈ [0x1, 0x4, 0x5, 0x6, 0x8, 0x9, 0xA]))
      (keptField 3 (op.toNat ∈ [0x2, 0x4, 0x5, 0x6, 0x7, 0x8, 0x9, 0xA])) (keptField 3 (op.toNat ∈ [0x4, 0x8, 0x9]))
      (keptField 8 (op.toNat ∈ [0x6, 0x9])) (BitVec.allOnes 11) := by decide

/-- A word agrees with its opcode's match under the mask exactly when the fields that the opcode does not use are 0 (R43). -/
theorem masked_iff_unusedFields_zero {w : Word} {row : OpRow} (hr : opRow (opField w) = some row) :
    w &&& row.mask = row.matchBits ↔
      w.extractLsb' 0 11 = 0#11 ∧
      ((opField w).toNat ∉ [0x6, 0x9] → w.extractLsb' 11 8 = 0#8) ∧
      ((opField w).toNat ∉ [0x4, 0x8, 0x9] → w.extractLsb' 19 3 = 0#3) ∧
      ((opField w).toNat ∉ [0x2, 0x4, 0x5, 0x6, 0x7, 0x8, 0x9, 0xA] → w.extractLsb' 22 3 = 0#3) ∧
      ((opField w).toNat ∉ [0x1, 0x4, 0x5, 0x6, 0x8, 0x9, 0xA] → w.extractLsb' 25 3 = 0#3) := by
  obtain ⟨hmatch, hmask⟩ := opRow_eq_ofFields _ _ hr
  conv_lhs => rw [← ofFields_of_word w, hmatch, hmask, ofFields_and, ofFields_inj]
  simp only [BitVec.and_allOnes, and_keptField_eq_zero_iff, decide_eq_false_iff_not]
  constructor
  · rintro ⟨-, hrd, hrs1, hrs2, himm8, hres⟩
    exact ⟨hres, himm8, hrs2, hrs1, hrd⟩
  · rintro ⟨hres, himm8, hrs2, hrs1, hrd⟩
    exact ⟨rfl, hrd, hrs1, hrs2, himm8, hres⟩

/-- Settles O6: the row exists unless the opcode is reserved, and `masked_iff_unusedFields_zero` names what breaks its match. -/
theorem wordIsIllegalExactlyByItsCauses : Obligations.WordIsIllegalExactlyByItsCauses := by
  refine ⟨fun w => ?_, fun s w din rest x => Machine.step_illegal⟩
  have hop9 : (w.extractLsb' 28 4).toNat = 0x9 ↔ opField w = 0x9#4 := BitVec.toNat_inj (y := 0x9#4)
  rw [decode_isError_iff, exists_decode_iff]
  by_cases hop : (opField w).toNat < 0xB
  · obtain ⟨row, hr⟩ := (exists_opRow_iff _).2 hop
    have hnot : ¬ 0xB ≤ (w.extractLsb' 28 4).toNat := not_le.2 hop
    simp only [hr, Option.some.injEq, exists_eq_left', masked_iff_unusedFields_zero hr, hop9, hnot, not_and_or,
      Classical.not_imp, not_le, false_or, or_assoc]
    rfl
  · refine iff_of_true ?_ (.inl (not_lt.1 hop))
    rintro ⟨row, hr, -⟩
    exact hop ((exists_opRow_iff _).1 ⟨row, hr⟩)

end Sys2Proof
end

section
/-! PROOFS, the pseudo-instructions (R47), with the relations between ROT and SQR that they rest on (R58). -/
namespace Sys2Proof.Machine
variable {s : State} {rd : Reg}

/-- A command whose sources are defined and whose effect is a write completes with that write and nothing else changed. -/
theorem exec_writesElement {i : Instr} {v : Elem} (hw : i.wellFormed = true) (hd : SourcesDefined i s)
    (hv : effectOf i (latchedOperands i s).1 (latchedOperands i s).2 = .element rd v) :
    ∃ t, exec i s = .next t ∧ WritesElement s t rd v :=
  ⟨_, by rw [exec_of_defined hw hd, hv]; rfl, writesElement_writeReg s rd v⟩

/-- R57: what ROT of a defined register does. -/
theorem exec_rot_writesElement {rs1 : Reg} (k : BitVec 8) (h : s.isDefined rs1 = true) :
    ∃ t, exec (.rot rd rs1 k) s = .next t ∧ WritesElement s t rd (fieldRot (s.reg rs1) k.toNat) :=
  exec_writesElement rfl (by simpa [SourcesDefined, sources] using h) rfl

/-- R53: what ADD of defined registers does. -/
theorem exec_add_writesElement {rs1 rs2 : Reg} (h1 : s.isDefined rs1 = true) (h2 : s.isDefined rs2 = true) :
    ∃ t, exec (.add rd rs1 rs2) s = .next t ∧ WritesElement s t rd (fieldAdd (s.reg rs1) (s.reg rs2)) :=
  exec_writesElement rfl (by simp [SourcesDefined, sources, h1, h2]) rfl

/-- R58: `n` squarings are one rotation, the two directions being opposite. -/
theorem fieldSqr_iterate_eq_fieldRot (a : Elem) (n : Nat) : fieldSqr^[n] a = fieldRot a ((233 - n % 233) % 233) := by
  refine elem_ext fun i hi => ?_
  rw [getLsbD_sqr_iterate n a hi, getLsbD_fieldRot a _ hi]
  congr 1
  omega

/-- R58: squaring undoes a rotation by one place. -/
theorem fieldSqr_fieldRot_one (a : Elem) : fieldSqr (fieldRot a 1) = a := by
  refine elem_ext fun i hi => ?_
  rw [getLsbD_fieldSqr _ hi, getLsbD_fieldRot a 1 (Nat.mod_lt _ (by decide))]
  congr 1
  omega

@[simp] theorem fieldRot_zero (a : Elem) : fieldRot a 0 = a := (fieldSqr_iterate_eq_fieldRot a 0).symm

/-- R54: every element is its own negative. -/
@[simp] theorem fieldAdd_self (a : Elem) : fieldAdd a a = ZERO := BitVec.xor_self

/-- SQRN's rotation amount fits its immediate (R41, R47). -/
theorem toNat_sqrnAmount (n : Nat) : (BitVec.ofNat 8 ((233 - n % 233) % 233)).toNat = (233 - n % 233) % 233 := by
  rw [BitVec.toNat_ofNat]
  omega

/-- Settles O24: three of the four are rotations, and `fieldSqr_iterate_eq_fieldRot` says which. -/
theorem pseudoInstructionsMeanTheirRules : Obligations.PseudoInstructionsMeanTheirRules := by
  refine fun rd rs n => ⟨⟨rfl, rfl, ⟨_, rfl, toNat_sqrnAmount n⟩, rfl⟩, fun s hs => ⟨?_, ?_, ?_, ?_⟩⟩
  · simpa [Pseudo.expand] using exec_rot_writesElement (rd := rd) 0#8 hs
  · obtain ⟨t, ht, hwrites⟩ := exec_rot_writesElement (rd := rd) 1#8 hs
    exact ⟨t, _, ht, hwrites, fieldSqr_fieldRot_one _⟩
  · rw [fieldSqr_iterate_eq_fieldRot, ← toNat_sqrnAmount n]
    exact exec_rot_writesElement _ hs
  · rw [← fieldAdd_self (s.reg rs)]
    exact exec_add_writesElement hs hs

end Sys2Proof.Machine
end

section
/-! PROOFS, the transfer and control commands (R49 to R52): their words, the other words of their opcodes, and what they do. -/
namespace Sys2Proof

/-- R39: a word of format C as its fields, each moved to its place. -/
theorem formatC_eq_or (op : BitVec 4) (rd rs1 rs2 : BitVec 3) (imm8 : BitVec 8) :
    formatC op rd rs1 rs2 imm8 = op.setWidth 32 <<< 28 ||| rd.setWidth 32 <<< 25 ||| rs1.setWidth 32 <<< 22 |||
      rs2.setWidth 32 <<< 19 ||| imm8.setWidth 32 <<< 11 := by
  refine BitVec.eq_of_getLsbD_eq fun i hi => ?_
  simp only [formatC_eq_ofFields, getLsbD_ofFields, BitVec.getLsbD_or, BitVec.getLsbD_shiftLeft, BitVec.getLsbD_setWidth]
  grind

/-- A register's field, as wide as a word, is the register's number (R40). -/
@[simp] theorem setWidth_regBits (r : Reg) : (regBits r).setWidth 32 = BitVec.ofNat 32 r.val :=
  BitVec.eq_of_toNat_eq (by simp)

/-- R44, R45: a word that differs from its opcode's match under the mask is illegal. -/
theorem illegal_of_mask_ne {w : Word} {row : OpRow} (hr : opRow (opField w) = some row)
    (h : w &&& row.mask ≠ row.matchBits) : ∃ x, decode w = .error x := by
  rw [decode_isError_iff, exists_decode_iff]
  rintro ⟨row', hr', hmatch, -⟩
  obtain rfl : row = row' := Option.some.inj (hr.symm.trans hr')
  exact h hmatch

/-- R43: an opcode whose mask keeps every bit has one legal word. -/
theorem illegal_of_ne_only_word {w m : Word} (hr : opRow (opField w) = some ⟨m, BitVec.allOnes 32⟩) (h : w ≠ m) :
    ∃ x, decode w = .error x :=
  illegal_of_mask_ne hr (by rwa [BitVec.and_allOnes])

end Sys2Proof

namespace Sys2Proof.Machine

/-- Settles O12: NOP's effect is none, and the mask of opcode 0x0 keeps every bit. -/
theorem nopChangesNothing : Obligations.NopChangesNothing :=
  ⟨by decide, fun _ => rfl, fun _ hop => illegal_of_ne_only_word (congrArg opRow hop)⟩

/-- Settles O13: LD has no source, and its effect is a write of the sampled `din`. -/
theorem ldWritesSampledDin : Obligations.LdWritesSampledDin := by
  refine fun rd s => ⟨?_, exec_writesElement rfl (by simp [SourcesDefined, sources]) rfl⟩
  simp [encode, formatC_eq_or]

/-- Settles O14: ST latches its source where it is defined, and stops on it where it is not. -/
theorem stWritesDout : Obligations.StWritesDout := by
  refine fun rs1 s => ⟨?_, fun h => ?_, fun h => exec_of_undefined rfl (by simp [sources, h])⟩
  · simp [encode, formatC_eq_or]
  · rw [exec_of_defined rfl (by simpa [sources] using h)]
    rfl

/-- Settles O15: CLR's effect clears both error bits, and the mask of opcode 0x3 keeps every bit. -/
theorem clrClearsBothErrors : Obligations.ClrClearsBothErrors :=
  ⟨by decide, fun _ => rfl, fun _ hop => illegal_of_ne_only_word (congrArg opRow hop)⟩

end Sys2Proof.Machine
end

section
/-! PROOFS, the additive and Frobenius commands ADD, SQR, ROT, TRC (R53, R54, R55, R57, R59): their words, where they stop, and
what they write, coefficient by coefficient. -/
namespace Sys2Proof.Machine
variable {s : State} {rd : Reg}

/-- R55: what SQR of a defined register does. -/
theorem exec_sqr_writesElement {rs1 : Reg} (h : s.isDefined rs1 = true) :
    ∃ t, exec (.sqr rd rs1) s = .next t ∧ WritesElement s t rd (fieldSqr (s.reg rs1)) :=
  exec_writesElement rfl (by simpa [SourcesDefined, sources] using h) rfl

/-- R59: what TRC of a defined register does. -/
theorem exec_trc_of_defined {rs1 : Reg} (h : s.isDefined rs1 = true) :
    exec (.trc rs1) s = .next { s with t := fieldTrace (s.reg rs1) } :=
  exec_of_defined rfl (by simpa [sources] using h)

/-- R57 as the rule writes it: coefficient `i` moves to place `(i + k mod 233) mod 233`. -/
theorem getLsbD_fieldRot_moved (a : Elem) (k : Nat) {i : Nat} (hi : i < 233) :
    (fieldRot a k).getLsbD ((i + k % 233) % 233) = a.getLsbD i := by
  have hback : ((i + k % 233) % 233 + (233 - k % 233)) % 233 = i := by omega
  rw [getLsbD_fieldRot a k (Nat.mod_lt _ (by decide)), hback]

/-- Settles O16: ADD writes `fieldAdd` of its sources, and stops on the first that is undefined. -/
theorem addWritesLanewiseXor : Obligations.AddWritesLanewiseXor := by
  refine fun rd rs1 rs2 s => ⟨?_, fun h1 h2 => ?_, fun h1 => exec_of_undefined rfl (by simp [sources, h1]),
    fun h1 h2 => exec_of_undefined rfl (by simp [sources, h1, h2])⟩
  · simp [encode, formatC_eq_or]
  · obtain ⟨t, ht, hwrites⟩ := exec_add_writesElement (rd := rd) h1 h2
    exact ⟨t, _, ht, hwrites, fun i _ => getLsbD_fieldAdd _ _ i⟩

/-- Settles O17: ADD is the exclusive or of bit vectors. -/
theorem additionLaws : Obligations.AdditionLaws := fun a b c =>
  ⟨BitVec.xor_comm a b, BitVec.xor_assoc a b c, fieldAdd_self a, BitVec.xor_zero⟩

/-- Settles O18: SQR writes `fieldSqr` of its source, whose index wraps around at 232 alone. -/
theorem sqrRotatesOnePlace : Obligations.SqrRotatesOnePlace := by
  refine fun rd rs1 s => ⟨?_, fun h => ?_, fun h => exec_of_undefined rfl (by simp [sources, h])⟩
  · simp [encode, formatC_eq_or]
  · obtain ⟨t, ht, hwrites⟩ := exec_sqr_writesElement (rd := rd) h
    refine ⟨t, _, ht, hwrites, getLsbD_fieldSqr _ (by decide), fun i hi => ?_⟩
    rw [getLsbD_fieldSqr _ (by omega), Nat.mod_eq_of_lt (by omega)]

/-- Settles O20: ROT writes `fieldRot` of its source, whose coefficients `getLsbD_fieldRot_moved` follows. -/
theorem rotMovesEveryCoefficient : Obligations.RotMovesEveryCoefficient := by
  refine fun rd rs1 k s => ⟨?_, fun h => ?_, fun h => exec_of_undefined rfl (by simp [sources, h])⟩
  · simp [encode, formatC_eq_or]
  · obtain ⟨t, ht, hwrites⟩ := exec_rot_writesElement (rd := rd) k h
    exact ⟨t, _, ht, hwrites, fun i hi => getLsbD_fieldRot_moved _ _ hi⟩

/-- Settles O22: TRC writes `fieldTrace` of its source to T, which `xorBelow_eq_parity` says is the parity of its ones. -/
theorem trcWritesParityToT : Obligations.TrcWritesParityToT := by
  refine fun rs1 s => ⟨?_, fun h => ?_, fun h => exec_of_undefined rfl (by simp [sources, h])⟩
  · simp [encode, formatC_eq_or]
  · rw [exec_trc_of_defined h, fieldTrace, xorBelow_eq_parity]

end Sys2Proof.Machine
end

section
/-! PROOFS, the field laws of the product (R71): each is the law of the field that holds the elements' values. -/
namespace Sys2Proof.Machine

theorem fieldMul_one (a : Elem) : fieldMul a ONE = a :=
  eq_of_embed fun K _ _ ζ hζ => by rw [embed_mul hζ, embed_one hζ, mul_one]

theorem fieldMul_zero (a : Elem) : fieldMul a ZERO = ZERO :=
  eq_of_embed fun K _ _ ζ hζ => by rw [embed_mul hζ, embed_zero, mul_zero]

theorem fieldMul_comm (a b : Elem) : fieldMul a b = fieldMul b a :=
  eq_of_embed fun K _ _ ζ hζ => by rw [embed_mul hζ, embed_mul hζ, mul_comm]

theorem fieldMul_assoc (a b c : Elem) : fieldMul (fieldMul a b) c = fieldMul a (fieldMul b c) :=
  eq_of_embed fun K _ _ ζ hζ => by simp only [embed_mul hζ, mul_assoc]

theorem fieldMul_fieldAdd (a b c : Elem) : fieldMul a (fieldAdd b c) = fieldAdd (fieldMul a b) (fieldMul a c) :=
  eq_of_embed fun K _ _ ζ hζ => by simp only [embed_mul hζ, embed_add, mul_add]

theorem fieldMul_self (a : Elem) : fieldMul a a = fieldSqr a :=
  eq_of_embed fun K _ _ ζ hζ => by rw [embed_mul hζ, embed_sqr hζ, sq]

/-- The power `2^233 - 2`, which R76 computes, is one factor short of the power that is 1. -/
theorem fieldMul_fieldInv {a : Elem} (h : a ≠ ZERO) : fieldMul a (fieldInv a) = ONE :=
  eq_of_embed fun K _ _ ζ hζ => by
    rw [embed_mul hζ, embed_fieldInv hζ, embed_one hζ, ← pow_succ']
    exact embed_pow_order hζ h

/-- Settles O29: each law by its lemma, and INV's chain gives the inverse. -/
theorem multiplicationLaws : Obligations.MultiplicationLaws :=
  ⟨fun a b c => ⟨fieldMul_one a, fieldMul_comm a b, fieldMul_assoc a b c, fieldMul_fieldAdd a b c, fieldMul_zero a,
    fieldMul_self a⟩, fieldMul_one ONE, fun _ h => ⟨_, fieldMul_fieldInv h⟩⟩

end Sys2Proof.Machine
end

section
/-! PROOFS, the command MUL (R67, R68): the bit of each round as counts of ones, the product assembled from the rounds, and what
MUL writes. -/
namespace Sys2Proof.Machine
variable {s : State} {rd : Reg}

/-- The XOR over a list is the parity of the number of members with the condition. -/
theorem xorList_eq_parity {α : Type} (l : List α) (f : α → Bool) : xorList l f = ((l.filter f).length % 2 == 1) := by
  induction l with
  | nil => rfl
  | cons x l ih =>
    rw [xorList_cons, ih]
    cases hx : f x
    · simp [hx]
    · rcases Nat.mod_two_eq_zero_or_one (l.filter f).length with h | h <;> simp [hx, h, Nat.add_mod]

/-- R68, step 1: `t[i]` counts, modulo 2, the pairs of row `i` whose coefficient of `x` is 1. -/
theorem getLsbD_matrixProduct (x : Elem) {i : Nat} (hi : i < 233) : (matrixProduct x).getLsbD i =
    ((matrix.filter fun ij => ij.1 == i && x.getLsbD (232 - ij.2)).length % 2 == 1) := by
  have hfold : matrixProduct x = matrix.foldl
      (fun t ij => t ^^^ if x.getLsbD (232 - ij.2) then BitVec.twoPow 233 ij.1 else ZERO) ZERO := by
    rw [matrixProduct]
    congr 1
    funext t ij
    split <;> simp
  rw [hfold, getLsbD_foldl_xor, foldl_xor_eq, BitVec.getLsbD_zero, Bool.false_xor, ← xorList_eq_parity]
  refine xorList_congr fun ij _ => ?_
  cases x.getLsbD (232 - ij.2) <;> simp [hi, eq_comm (a := i), beq_eq_decide]

/-- R68, steps 1 to 3, with the XORs as parities. -/
theorem roundBit_eq_parity (x y : Elem) : roundBit x y =
    (((List.range 233).filter fun i =>
      (matrix.filter fun ij => ij.1 == i && x.getLsbD (232 - ij.2)).length % 2 == 1 &&
        y.getLsbD (232 - i)).length % 2 == 1) := by
  rw [roundBit, innerProduct, ← xorBelow_eq_parity]
  refine xorBelow_congr fun i hi => ?_
  rw [getLsbD_matrixProduct x hi, BitVec.getLsbD_reverse, BitVec.getMsbD_eq_getLsbD]
  simp [hi]

/-- R68, R69: coefficient `i` of the product is the bit of round `(i + 1) mod 233`. -/
theorem getLsbD_fieldMul_eq_roundBit (a b : Elem) {i : Nat} (hi : i < 233) : (fieldMul a b).getLsbD i =
    roundBit (fieldSqr^[(i + 1) % 233] a) (fieldSqr^[(i + 1) % 233] b) := by
  obtain ⟨-, -, -, hround⟩ := mulRound_iterate a b le_rfl
  rw [← fieldMulByRounds_eq, fieldMulByRounds, getLsbD_assembleProduct _ hi, hround _ (Nat.mod_lt _ (by decide))]

/-- R67: what MUL of defined registers does. -/
theorem exec_mul_writesElement {rs1 rs2 : Reg} (h1 : s.isDefined rs1 = true) (h2 : s.isDefined rs2 = true) :
    ∃ t, exec (.mul rd rs1 rs2) s = .next t ∧ WritesElement s t rd (fieldMul (s.reg rs1) (s.reg rs2)) :=
  exec_writesElement rfl (by simp [SourcesDefined, sources, h1, h2]) rfl

/-- Settles O27: MUL writes `fieldMul` of its sources, whose coefficients are the bits of the rounds. -/
theorem mulWritesRoundProduct : Obligations.MulWritesRoundProduct := by
  refine ⟨fun rd rs1 rs2 s => ⟨?_, fun h1 h2 => ?_, fun h1 => exec_of_undefined rfl (by simp [sources, h1]),
    fun h1 h2 => exec_of_undefined rfl (by simp [sources, h1, h2])⟩,
    fun a => ⟨fieldMul_one a, fieldMul_zero a, fieldMul_self a⟩⟩
  · simp [encode, formatC_eq_or]
  · obtain ⟨t, ht, hwrites⟩ := exec_mul_writesElement (rd := rd) h1 h2
    refine ⟨t, ht, hwrites, fun i hi => ?_⟩
    rw [getLsbD_fieldMul_eq_roundBit _ _ hi, roundBit_eq_parity]

end Sys2Proof.Machine
end

section
/-! PROOFS, the command POW (R72): the rule's pseudocode, and what POW writes. -/
namespace Sys2Proof

/-- R41: a POW whose exponent fits an element is a legal command. -/
theorem wellFormed_pow {rd rs1 rs2 : Reg} {len : BitVec 8} (hlen : len.toNat ≤ 233) :
    (Instr.pow rd rs1 rs2 len).wellFormed = true :=
  decide_eq_true hlen

/-- R44, R45: a POW whose exponent is longer than an element is illegal. -/
theorem illegal_of_exponent_too_long {w : Word} (hop : opField w = 0x9#4) (hlen : 233 < (fieldsOf w).imm8.toNat) :
    ∃ x, decode w = .error x := by
  rw [decode_isError_iff, exists_decode_iff]
  rintro ⟨row, -, -, hle⟩
  exact absurd (hle hop) (not_le.2 hlen)

end Sys2Proof

namespace Sys2Proof.Machine
variable {s : State} {rd : Reg}

/-- R72: the first exponent bit, an empty exponent having none. -/
theorem powFirst_eq {α : Type} (F : FieldOps α) (a : α) (x : Elem) (len : Nat) : powFirst F a x len =
    (if 0 < len ∧ x.getLsbD (len - 1) = true then F.mul F.one a else F.one, len - 1) := by
  cases len with
  | zero => rfl
  | succ n => simp [powFirst]

/-- R72: the power is the first bit's result, carried through the subsequent bits, highest first. -/
theorem fieldPow_eq_foldl (a x : Elem) (len : Nat) : fieldPow a x len =
    (List.range (len - 1)).reverse.foldl
      (fun r idx => if x.getLsbD idx then fieldMul (fieldSqr r) a else fieldSqr r)
      (if 0 < len ∧ x.getLsbD (len - 1) = true then fieldMul ONE a else ONE) := by
  rw [fieldPow, powWith, powLoop_eq_foldl, powFirst_eq]
  simp only [powBit, elemOps_mul, elemOps_sqr, elemOps_one]

/-- R72: what POW of defined registers does. -/
theorem exec_pow_writesElement {rs1 rs2 : Reg} {len : BitVec 8} (hlen : len.toNat ≤ 233)
    (h1 : s.isDefined rs1 = true) (h2 : s.isDefined rs2 = true) :
    ∃ t, exec (.pow rd rs1 rs2 len) s = .next t ∧ WritesElement s t rd (fieldPow (s.reg rs1) (s.reg rs2) len.toNat) :=
  exec_writesElement (wellFormed_pow hlen) (by simp [SourcesDefined, sources, h1, h2]) rfl

/-- Settles O30: POW writes `fieldPow` of its sources, which `fieldPow_eq_foldl` says is the rule's pseudocode. -/
theorem powWritesSquareAndMultiply : Obligations.PowWritesSquareAndMultiply := by
  refine ⟨fun rd rs1 rs2 len s hlen => ⟨?_, fun h1 h2 => ?_,
    fun h1 => exec_of_undefined (wellFormed_pow hlen) (by simp [sources, h1]),
    fun h1 h2 => exec_of_undefined (wellFormed_pow hlen) (by simp [sources, h1, h2])⟩,
    fun _ => illegal_of_exponent_too_long⟩
  · simp [encode, formatC_eq_or]
  · simpa only [fieldPow_eq_foldl] using exec_pow_writesElement (rd := rd) hlen h1 h2

end Sys2Proof.Machine
end

section
/-! PROOFS, the inverse and the command INV (R75, R76, R78): the chain written out, the laws of the inverse, and what INV does. -/
namespace Sys2Proof.Machine
variable {s : State} {rd rs1 : Reg}

/-- R76: a chain position with a 0 bit doubles. -/
theorem chainStep_false (a beta : Elem) (k : Nat) :
    chainStep elemOps a false (beta, k) = (fieldMul (fieldSqr^[k] beta) beta, 2 * k) := by
  rw [chainStep_eq, elemOps_mul, elemOps_sqr, if_neg Bool.false_ne_true]

/-- R76: a chain position with a 1 bit doubles and then extends by the original `a`. -/
theorem chainStep_true (a beta : Elem) (k : Nat) : chainStep elemOps a true (beta, k) =
    (fieldMul (fieldSqr (fieldMul (fieldSqr^[k] beta) beta)) a, 2 * k + 1) := by
  rw [chainStep_eq, elemOps_mul, elemOps_sqr, if_pos rfl]

/-- Settles O33: the loop over the seven bits 1101000, each by the lemma of its bit. -/
theorem inversionChainTrace : Obligations.InversionChainTrace := by
  intro a
  simp only [fieldInv, itohTsujiiWith, elemOps_sqr, chainLoop, chain, List.drop_succ_cons, List.drop_zero, List.foldl_cons,
    List.foldl_nil, chainStep_true, chainStep_false, Nat.reduceMul, Nat.reduceAdd]

theorem one_ne_zero_elem : ONE ≠ ZERO := by decide

/-- A right inverse is the inverse that INV computes. -/
theorem fieldInv_eq_of_fieldMul_eq_one {a b : Elem} (h : fieldMul a b = ONE) : fieldInv a = b := by
  have ha : a ≠ ZERO := by
    rintro rfl
    exact one_ne_zero_elem (by rw [← h, fieldMul_comm, fieldMul_zero])
  calc fieldInv a = fieldMul (fieldInv a) (fieldMul a b) := by rw [h, fieldMul_one]
    _ = fieldMul b (fieldMul a (fieldInv a)) := by
      rw [← fieldMul_assoc, fieldMul_comm (fieldInv a), fieldMul_comm b]
    _ = b := by rw [fieldMul_fieldInv ha, fieldMul_one]

theorem fieldInv_one : fieldInv ONE = ONE :=
  fieldInv_eq_of_fieldMul_eq_one (fieldMul_one ONE)

theorem fieldInv_fieldInv {a : Elem} (h : a ≠ ZERO) : fieldInv (fieldInv a) = a :=
  fieldInv_eq_of_fieldMul_eq_one (by rw [fieldMul_comm, fieldMul_fieldInv h])

/-- R78: the exponent `2^233 − 2` is the element whose coefficients are all 1 but the lowest. -/
theorem fieldInv_eq_fieldPow (a : Elem) : fieldInv a = fieldPow a (fieldAdd ONE (basisElem 0)) 233 :=
  eq_of_embed fun K _ _ ζ hζ => by
    have hexp : (fieldAdd ONE (basisElem 0)).toNat % 2 ^ 233 = 2 ^ 233 - 2 := by decide
    rw [embed_fieldInv hζ, embed_fieldPow hζ, hexp]

/-- R75: what INV of a defined register other than ZERO does. -/
theorem exec_inv_writesElement (h : s.isDefined rs1 = true) (hne : s.reg rs1 ≠ ZERO) :
    ∃ t, exec (.inv rd rs1) s = .next t ∧ WritesElement s t rd (fieldInv (s.reg rs1)) :=
  exec_writesElement rfl (by simpa [SourcesDefined, sources] using h) (if_neg hne)

/-- A command whose sources are defined completes with its effect committed, whatever the effect is. -/
theorem exec_commits {i : Instr} {x : Effect} (hw : i.wellFormed = true) (hd : SourcesDefined i s)
    (hx : effectOf i (latchedOperands i s).1 (latchedOperands i s).2 = x) : exec i s = .next (s.commit x) := by
  rw [exec_of_defined hw hd, hx]

/-- R75, R81: what INV of a defined register that holds ZERO does. -/
theorem exec_inv_of_zero (h : s.isDefined rs1 = true) (hz : s.reg rs1 = ZERO) :
    exec (.inv rd rs1) s = .next { s with dom := true } :=
  exec_commits (x := .error .domain) rfl (by simpa [SourcesDefined, sources] using h) (if_pos hz)

/-- Settles O32: INV is one of three cases, by its source, and the inverse of an inverse is the element. -/
theorem invWritesInverseOrRaisesDomain : Obligations.InvWritesInverseOrRaisesDomain := by
  refine ⟨fun rd rs1 s => ⟨?_, exec_inv_writesElement, exec_inv_of_zero,
    fun h => exec_of_undefined rfl (by simp [sources, h])⟩, fieldInv_one, fun _ => fieldInv_fieldInv⟩
  simp [encode, formatC_eq_or]

/-- Settles O34: INV leaves its source as it is, so that MUL reads the element and its inverse. -/
theorem inversionIsTheFieldInverse : Obligations.InversionIsTheFieldInverse := by
  refine ⟨fun s rd rs1 q hr h hne => ?_, fun a ha => ⟨fieldMul_fieldInv ha, fieldInv_fieldInv ha, fieldInv_eq_fieldPow a⟩,
    fieldInv_one⟩
  obtain ⟨t, ht, hinv⟩ := exec_inv_writesElement (rd := rd) h hne
  obtain ⟨hkept, hdefined⟩ := hinv.others rs1 hr.symm
  obtain ⟨u, hu, hmul⟩ := exec_mul_writesElement (rd := q) (hdefined.trans h) hinv.defined
  refine ⟨t, u, ht, hu, ?_⟩
  rw [hmul.value, hkept, hinv.value, fieldMul_fieldInv hne]

end Sys2Proof.Machine
end

section
/-! PROOFS, the two errors and their order (R79 to R84): what raises DOM, what an illegal word changes, and which of several
causes is reported. -/
namespace Sys2Proof.Machine
variable {i : Instr} {s t : State}

/-- R81: of the effects, raising DOMAIN alone takes DOM from 0 to 1. -/
theorem eq_domain_of_commit_dom {x : Effect} (h0 : s.dom = false) (h1 : (s.commit x).dom = true) :
    x = .error .domain := by
  cases x with
  | error k =>
    cases k with
    | domain => rfl
    | illegal => simp [h0] at h1
  | _ => simp [h0] at h1

/-- R75, R81: of the commands, INV alone has the effect of raising DOMAIN, and only from ZERO. -/
theorem eq_inv_of_effectOf_domain {a b : Elem} (h : effectOf i a b = .error .domain) :
    (∃ rd rs1, i = .inv rd rs1) ∧ a = ZERO := by
  cases i with
  | inv rd rs1 =>
    refine ⟨⟨rd, rs1, rfl⟩, ?_⟩
    by_contra ha
    exact Effect.noConfusion ((if_neg ha).symm.trans h)
  | _ => exact Effect.noConfusion h

/-- R81: a command that completes with DOM gone from 0 to 1 is INV of ZERO, and it changes nothing else. -/
theorem eq_inv_of_exec_dom (h : exec i s = .next t) (h0 : s.dom = false) (h1 : t.dom = true) :
    ∃ rd rs1, i = .inv rd rs1 ∧ s.reg rs1 = ZERO ∧ t = { s with dom := true } := by
  obtain ⟨-, rfl⟩ | ⟨-, rfl⟩ := exec_next h
  · have hx := eq_domain_of_commit_dom h0 h1
    obtain ⟨⟨rd, rs1, rfl⟩, hz⟩ := eq_inv_of_effectOf_domain hx
    exact ⟨rd, rs1, rfl, hz, by rw [hx]; rfl⟩
  · simp [h0] at h1

/-- R48, R84: a well-formed command whose first source is undefined stops on it, whatever it reads besides. -/
theorem exec_of_first_undefined {rs1 : Reg} {rs : List Reg} (hw : i.wellFormed = true) (hs : sources i = rs1 :: rs)
    (h : s.isDefined rs1 = false) : exec i s = .fault (.uninit rs1) :=
  exec_of_undefined hw (by simp [hs, h])

/-- Settles O40: the effect that raises DOM is INV's of ZERO alone, and INV of ZERO has it. -/
theorem onlyInvOfZeroRaisesDomain : Obligations.OnlyInvOfZeroRaisesDomain :=
  ⟨fun _ _ _ => eq_inv_of_exec_dom, fun _ _ _ hd hz => ⟨_, exec_inv_of_zero hd hz, rfl, getLsbD_status _ 9⟩⟩

/-- Settles O8: the step raises ILLEGAL in the state that has taken the word, and `raise` sets ILL alone. -/
theorem illegalWordSetsIllOnly : Obligations.IllegalWordSetsIllOnly := fun _ _ _ _ _ hf hh hd =>
  ⟨_, step_illegal hf hh hd, rfl, getLsbD_status _ 8, rfl, rfl, rfl, hf, rfl, fun _ => ⟨rfl, rfl⟩⟩

/-- Settles O11: an illegal word and a reset answer before any operand is read, and a command stops on its first source
before its effect is computed. -/
theorem illegalBeforeUninitBeforeDomain : Obligations.IllegalBeforeUninitBeforeDomain := by
  refine ⟨fun s w din rest x hf hh hd => ⟨_, step_illegal hf hh hd, rfl, rfl⟩, fun s rd rs1 rs2 len h hlen => ?_,
    fun s rd rs1 h => exec_of_first_undefined rfl rfl h, fun s rest hh => ⟨_, step_reset hh, rfl, rfl, rfl⟩⟩
  exact ⟨exec_of_first_undefined rfl rfl h, exec_of_first_undefined rfl rfl h,
    exec_of_first_undefined (wellFormed_pow hlen) rfl h⟩

end Sys2Proof.Machine
end

section
/-! PROOFS, the reset (R84, R90): an edge with `rst_n` = 0 abandons what is in flight and leaves every register undefined. -/
namespace Sys2Proof.Machine

/-- R84, R90: with `rst_n` = 0 an edge is the reset edge, whatever else is driven and whatever is in flight. -/
theorem edge_of_reset {tm : Config.Timing} {p : Pins} {s : State} (h : p.rstN = false) : edge tm p s = .next s.resetEdge := by
  simp [edge, h]

/-- R18, R90: the reset edge leaves every element register undefined. -/
@[simp] theorem isDefined_resetEdge (s : State) (r : Reg) : s.resetEdge.isDefined r = false :=
  isDefined_reset r

/-- R21, R90: nothing is in flight after the reset edge, so BUSY is 0. -/
@[simp] theorem busy_resetEdge (s : State) : s.resetEdge.busy = false := rfl

/-- R23: `cmd_ready` is 0 while `rst_n` = 0, busy or not. -/
theorem cmdReady_of_reset {p : Pins} (s : State) (h : p.rstN = false) : s.cmdReady p.rstN = false := by
  simp [State.cmdReady, h]

/-- R23, R90: outside reset `cmd_ready` is 1 from the reset edge on. -/
theorem cmdReady_resetEdge (s : State) : s.resetEdge.cmdReady true = true := by
  simp [State.cmdReady]

/-- Settles O44: the edge, and the step that takes a reset, answer `resetEdge`, of which the rest is read off. -/
theorem resetOverridesEverything : Obligations.ResetOverridesEverything := by
  refine ⟨fun tm s p h => ⟨cmdReady_of_reset s h, s.resetEdge, edge_of_reset h, isDefined_resetEdge s, ?_⟩,
    fun s rest h => ⟨({ s with host := rest } : State).resetEdge, step_reset h, isDefined_resetEdge _, ?_⟩⟩
  · exact ⟨resetEdge_t s, resetEdge_ill s, resetEdge_dom s, resetEdge_dout s, busy_resetEdge s, resetEdge_inFlight s,
      cmdReady_resetEdge s⟩
  · exact ⟨resetEdge_t _, resetEdge_ill _, resetEdge_dom _, resetEdge_dout _, busy_resetEdge _, resetEdge_inFlight _,
      resetEdge_host _⟩

end Sys2Proof.Machine
end

section
/-! PROOFS, encoder and decoder against each other (R39 to R45): the word of an instruction, and the instruction of a word. -/
namespace Sys2Proof

/-- The operand fields of an instruction's word, 0 where the opcode does not use a field (R42, R43). -/
def operandFields : Instr → Fields
  | .nop | .clr => ⟨0, 0, 0, 0#8⟩
  | .ld rd => ⟨rd, 0, 0, 0#8⟩
  | .st rs1 | .trc rs1 => ⟨0, rs1, 0, 0#8⟩
  | .sqr rd rs1 | .inv rd rs1 => ⟨rd, rs1, 0, 0#8⟩
  | .add rd rs1 rs2 | .mul rd rs1 rs2 => ⟨rd, rs1, rs2, 0#8⟩
  | .rot rd rs1 k => ⟨rd, rs1, 0, k⟩
  | .pow rd rs1 rs2 len => ⟨rd, rs1, rs2, len⟩

/-- Every word that the encoder makes has format C (R39). -/
theorem encode_eq_ofFields (i : Instr) : encode i = ofFields (Laws.opcodeNumber i) (regBits (operandFields i).rd)
    (regBits (operandFields i).rs1) (regBits (operandFields i).rs2) (operandFields i).imm8 0#11 := by
  cases i <;> rfl

/-- A register's field holds that register (R40). -/
theorem regField_eq_of_extractLsb' {w : Word} {lo : Nat} {r : Reg} (h : w.extractLsb' lo 3 = regBits r) :
    regField w lo = r :=
  Fin.ext (by simp [regField, h])

@[simp] theorem regBits_zero : regBits 0 = 0#3 := rfl

theorem opField_encode (i : Instr) : opField (encode i) = Laws.opcodeNumber i := by
  rw [encode_eq_ofFields, opField, op_ofFields]

theorem fieldsOf_encode (i : Instr) : fieldsOf (encode i) = operandFields i := by
  rw [encode_eq_ofFields, fieldsOf, imm8_ofFields, regField_eq_of_extractLsb' (rd_ofFields ..),
    regField_eq_of_extractLsb' (rs1_ofFields ..), regField_eq_of_extractLsb' (rs2_ofFields ..)]

theorem instrOf_operandFields (i : Instr) : instrOf (Laws.opcodeNumber i) (operandFields i) = some i := by
  cases i <;> rfl

/-- The encoder leaves every field 0 that the opcode does not use, so its word has the row's match (R43). -/
theorem encode_masked {i : Instr} {row : OpRow} (hr : opRow (opField (encode i)) = some row) :
    encode i &&& row.mask = row.matchBits := by
  rw [masked_iff_unusedFields_zero hr, opField_encode, encode_eq_ofFields, res_ofFields, imm8_ofFields, rs2_ofFields,
    rs1_ofFields, rd_ofFields]
  cases i <;> simp [Laws.opcodeNumber, operandFields]

/-- R41: an exponent that a well-formed instruction holds is at most 233. -/
theorem imm8_le_of_wellFormed {i : Instr} (hw : i.wellFormed = true) (hop : Laws.opcodeNumber i = 0x9#4) :
    (operandFields i).imm8.toNat ≤ 233 := by
  cases i with
  | pow rd rs1 rs2 len => exact of_decide_eq_true hw
  | _ => simp [Laws.opcodeNumber] at hop

/-- Settles O1: the word's opcode and fields are the instruction's own, it matches its row, and a POW's length is legal. -/
theorem decodeOfEncodeIsInstruction : Obligations.DecodeOfEncodeIsInstruction := by
  intro i hw
  have hi : instrOf (opField (encode i)) (fieldsOf (encode i)) = some i := by
    rw [opField_encode, fieldsOf_encode, instrOf_operandFields]
  obtain ⟨row, hr⟩ := (exists_opRow_iff _).2 ((exists_instrOf_iff _ _).1 ⟨i, hi⟩)
  refine decode_eq_ok_iff.2 ⟨row, hr, hi, encode_masked hr, fun hop => ?_⟩
  rw [fieldsOf_encode]
  exact imm8_le_of_wellFormed hw (by rw [← opField_encode, hop])

/-- The opcode of a decoded command is the command's own number (R42). -/
theorem opcodeNumber_of_instrOf {op : BitVec 4} {f : Fields} {i : Instr} (h : instrOf op f = some i) :
    Laws.opcodeNumber i = op := by
  unfold instrOf at h
  split at h <;> cases h <;> exact BitVec.eq_of_toNat_eq (Eq.symm (by assumption))

/-- The fields that an opcode uses are the operands of the command it stands for, and a field of 0 stands where it uses none. -/
theorem regBits_operandFields {w : Word} {i : Instr} {row : OpRow} (hr : opRow (opField w) = some row)
    (hmask : w &&& row.mask = row.matchBits) (hi : instrOf (opField w) (fieldsOf w) = some i) :
    regBits (operandFields i).rd = w.extractLsb' 25 3 ∧ regBits (operandFields i).rs1 = w.extractLsb' 22 3 ∧
      regBits (operandFields i).rs2 = w.extractLsb' 19 3 ∧ (operandFields i).imm8 = w.extractLsb' 11 8 := by
  obtain ⟨-, himm8, hrs2, hrs1, hrd⟩ := (masked_iff_unusedFields_zero hr).1 hmask
  rw [← opcodeNumber_of_instrOf hi] at himm8 hrs2 hrs1 hrd
  unfold instrOf at hi
  split at hi <;> cases hi <;> simp_all [operandFields, Laws.opcodeNumber, fieldsOf]

/-- Settles O2: a decoded word has its command's opcode, the command's operands in the fields that the opcode uses, and 0 in
every other field. -/
theorem legalWordIsEncodingOfItsInstruction : Obligations.LegalWordIsEncodingOfItsInstruction := by
  intro w i h
  obtain ⟨row, hr, hi, hmask, hlen⟩ := decode_eq_ok_iff.1 h
  constructor
  · cases i with
    | pow rd rs1 rs2 len =>
      obtain ⟨-, -, -, himm8⟩ := holdOperandsOf_of_decode h
      exact wellFormed_pow (himm8 ▸ hlen (opcodeNumber_of_instrOf hi).symm)
    | _ => rfl
  · obtain ⟨hrd, hrs1, hrs2, himm8⟩ := regBits_operandFields hr hmask hi
    obtain ⟨hres, -⟩ := (masked_iff_unusedFields_zero hr).1 hmask
    rw [encode_eq_ofFields, hrd, hrs1, hrs2, himm8, opcodeNumber_of_instrOf hi, ← hres]
    exact ofFields_of_word w

end Sys2Proof
end

section
/-! PROOFS, undefined registers (R18): no step depends on the value that one stores. -/
namespace Sys2Proof.Machine
variable {s t : State}

theorem SameButUndefined.refl (s : State) : SameButUndefined s s :=
  ⟨rfl, fun _ _ => rfl, rfl, rfl, rfl, rfl, rfl, rfl, rfl⟩

theorem SameButUndefined.isDefined_eq (h : SameButUndefined s t) (r : Reg) : s.isDefined r = t.isDefined r :=
  congrArg (fun d => d.get r) h.edef

/-- A write to the same register with the same value keeps the agreement. -/
theorem SameButUndefined.writeReg (h : SameButUndefined s t) (rd : Reg) (v : Elem) :
    SameButUndefined (s.writeReg rd v) (t.writeReg rd v) := by
  refine { h with edef := ?_, e := fun r hr => ?_ }
  · rw [writeReg_edef, writeReg_edef, h.edef]
  · by_cases hrd : r = rd
    · rw [hrd, reg_writeReg_self, reg_writeReg_self]
    · rw [isDefined_writeReg_ne _ _ _ _ hrd] at hr
      rw [reg_writeReg_ne _ _ _ _ hrd, reg_writeReg_ne _ _ _ _ hrd, h.e r hr]

/-- So does any other effect, which touches no register. -/
theorem SameButUndefined.commit (h : SameButUndefined s t) (x : Effect) :
    SameButUndefined (s.commit x) (t.commit x) := by
  cases x with
  | nothing => exact h
  | element rd v => exact h.writeReg rd v
  | trace b => exact { h with trace := rfl }
  | output v => exact { h with dout := rfl }
  | clear => exact { h with ill := rfl, dom := rfl }
  | error k =>
    cases k with
    | illegal => exact { h with ill := rfl }
    | domain => exact { h with dom := rfl }

theorem SameButUndefined.complete (h : SameButUndefined s t) (f : InFlight) :
    SameButUndefined (s.complete f) (t.complete f) :=
  { h.commit f.effect with inFlight := rfl }

/-- Taking the host's command keeps the agreement, and sampling the same `din` does. -/
theorem SameButUndefined.acceptHead (h : SameButUndefined s t) (rest : List HostAction) :
    SameButUndefined (s.acceptHead rest) (t.acceptHead rest) :=
  { h with host := rfl }

theorem SameButUndefined.sampleDin (h : SameButUndefined s t) (i : Instr) (port : Elem) :
    SameButUndefined (s.sampleDin i port) (t.sampleDin i port) := by
  unfold State.sampleDin
  split
  · exact { h with din := rfl }
  · exact h

/-- A command whose sources are defined latches the same operands in both states (R18, R30). -/
theorem SameButUndefined.latchedOperands_eq {i : Instr} (h : SameButUndefined s t) (hd : SourcesDefined i s) :
    latchedOperands i s = latchedOperands i t := by
  have he : ∀ r ∈ sources i, s.reg r = t.reg r := fun r hr => h.e r (hd r hr)
  cases i <;> simp_all [latchedOperands, samplesDin, sources, h.din]

/-- A POW whose length is illegal raises ILLEGAL before it reads a register (log 12). -/
theorem exec_of_illFormed {i : Instr} (hw : i.wellFormed ≠ true) (s : State) : exec i s = .next (s.raise .illegal) := by
  cases i with
  | pow rd rs1 rs2 len => exact if_pos (by simpa [Instr.wellFormed] using hw)
  | _ => exact absurd rfl hw

/-- A command has a first undefined source, or all its sources are defined (R48). -/
theorem first_undefined_or_sourcesDefined (i : Instr) (s : State) :
    (∃ r, (sources i).find? (fun r => !s.isDefined r) = some r) ∨ SourcesDefined i s := by
  cases h : (sources i).find? fun r => !s.isDefined r with
  | some r => exact .inl ⟨r, rfl⟩
  | none => exact .inr (by simpa [SourcesDefined] using h)

/-- A command comes out the same in both states: it stops on the same register, or it writes the same effect. -/
theorem SameButUndefined.exec (h : SameButUndefined s t) (i : Instr) : SameOutcome (exec i s) (exec i t) := by
  by_cases hw : i.wellFormed = true
  · obtain ⟨r, hr⟩ | hd := first_undefined_or_sourcesDefined i s
    · have hr' := hr
      simp only [h.isDefined_eq] at hr'
      rw [exec_of_undefined hw hr, exec_of_undefined hw hr']
      exact rfl
    · have hd' : SourcesDefined i t := fun r hr => (h.isDefined_eq r).symm.trans (hd r hr)
      rw [exec_of_defined hw hd, exec_of_defined hw hd', h.latchedOperands_eq hd]
      exact h.commit _
  · rw [exec_of_illFormed hw, exec_of_illFormed hw]
    exact h.commit (.error .illegal)

/-- Settles O45: the two states take the same transaction, and each keeps the agreement. -/
theorem undefinedValuesNeverMatter : Obligations.UndefinedValuesNeverMatter := by
  intro s t h
  have hhost := h.host
  have hflight := h.inFlight
  match hh : s.host, hf : s.inFlight with
  | .reset :: rest, _ =>
    rw [step_reset hh, step_reset (hhost ▸ hh)]
    exact SameButUndefined.refl _
  | [], some f =>
    rw [step_inFlight hf (by simp [hh]), step_inFlight (hflight ▸ hf) (by simp [← hhost, hh])]
    exact h.complete f
  | .command w din :: rest, some f =>
    rw [step_inFlight hf (by simp [hh]), step_inFlight (hflight ▸ hf) (by simp [← hhost, hh])]
    exact h.complete f
  | [], none =>
    rw [step_idle hf hh, step_idle (hflight ▸ hf) (hhost ▸ hh)]
    exact h
  | .command w din :: rest, none =>
    have hacc := h.acceptHead rest
    cases hd : decode w with
    | error x =>
      rw [step_illegal hf hh hd, step_illegal (hflight ▸ hf) (hhost ▸ hh) hd]
      exact hacc.commit (.error .illegal)
    | ok i =>
      rw [step_instruction hf hh hd, step_instruction (hflight ▸ hf) (hhost ▸ hh) hd]
      exact (hacc.sampleDin i din).exec i

end Sys2Proof.Machine
end

section
/-! PROOFS, the command in flight (R21, R27, R29, R36, R97): what an edge can do, the invariant that edges and steps keep, and the
completion of a command in flight. -/
namespace Sys2Proof.Machine
variable {tm : Config.Timing} {p : Pins} {s t : State} {f : InFlight} {i : Instr}

/-! ### An edge, by what is in flight and what the pins say -/

theorem edge_completing (hp : p.rstN = true) (hf : s.inFlight = some f) (hl : f.left ≤ 1) :
    edge tm p s = .next (s.complete f) := by
  simp [edge, hp, hf, hl]

theorem edge_busy (hp : p.rstN = true) (hf : s.inFlight = some f) (hl : 1 < f.left) :
    edge tm p s = .next { s with inFlight := some (f.tick tm) } := by
  simp [edge, hp, hf, Nat.not_le.2 hl]

theorem edge_waiting (hp : p.rstN = true) (hf : s.inFlight = none) (hv : p.cmdValid = false) :
    edge tm p s = .next s := by
  simp [edge, hp, hf, hv]

theorem edge_accepting (hp : p.rstN = true) (hf : s.inFlight = none) (hv : p.cmdValid = true) :
    edge tm p s = s.accept tm p := by
  simp [edge, hp, hf, hv]

/-- The command in flight after the edge that accepts an illegal word: it holds no operands and no engine (log 9). -/
def InFlight.illegalAtLaunch (tm : Config.Timing) (w : Word) : InFlight :=
  { word := w, a := ZERO, b := ZERO, left := tm.lat w ZERO ZERO, engine := .idle }

theorem accept_illegal {x : Illegal} (hd : decode p.cmd = .error x) :
    s.accept tm p = .next { s with inFlight := some (InFlight.illegalAtLaunch tm p.cmd) } := by
  rw [State.accept, hd]
  rfl

theorem accept_legal (hd : decode p.cmd = .ok i) : s.accept tm p =
    (s.sampleDin i p.din).withLatched i fun a b =>
      .next ((s.sampleDin i p.din).launch tm p.cmd a b (Engine.start i a b)) := by
  rw [State.accept, hd]

/-- The command in flight after the edge that accepts a legal command with defined sources (R27, R29, R30). -/
def InFlight.atLaunch (tm : Config.Timing) (w : Word) (i : Instr) (s : State) : InFlight :=
  let (a, b) := latchedOperands i s
  { word := w, a, b, left := tm.lat w a b, engine := Engine.start i a b }

/-- With its sources defined, a legal command is launched on its latched operands. -/
theorem accept_of_defined (hd : decode p.cmd = .ok i) (hsrc : SourcesDefined i (s.sampleDin i p.din)) :
    s.accept tm p = .next { s.sampleDin i p.din with
      inFlight := some (InFlight.atLaunch tm p.cmd i (s.sampleDin i p.din)) } := by
  rw [accept_legal hd, withLatched_of_defined hsrc]
  rfl

/-- Everything an edge can do when it answers a next state. -/
theorem edge_next (h : edge tm p s = .next t) :
    t = s.resetEdge ∨
    (∃ f, s.inFlight = some f ∧ t = s.complete f) ∨
    (∃ f, s.inFlight = some f ∧ 1 < f.left ∧ t = { s with inFlight := some (f.tick tm) }) ∨
    (s.inFlight = none ∧ t = s) ∨
    (∃ x, decode p.cmd = .error x ∧ t = { s with inFlight := some (InFlight.illegalAtLaunch tm p.cmd) }) ∨
    (∃ i, decode p.cmd = .ok i ∧ SourcesDefined i (s.sampleDin i p.din) ∧
      t = { s.sampleDin i p.din with inFlight := some (InFlight.atLaunch tm p.cmd i (s.sampleDin i p.din)) }) := by
  cases hp : p.rstN with
  | false =>
    rw [edge_of_reset hp] at h
    exact .inl (by cases h; rfl)
  | true =>
    refine .inr ?_
    cases hf : s.inFlight with
    | some f =>
      by_cases hl : f.left ≤ 1
      · rw [edge_completing hp hf hl] at h
        exact .inl ⟨f, rfl, by cases h; rfl⟩
      · rw [edge_busy hp hf (by omega)] at h
        exact .inr (.inl ⟨f, rfl, by omega, by cases h; rfl⟩)
    | none =>
      refine .inr (.inr ?_)
      cases hv : p.cmdValid with
      | false =>
        rw [edge_waiting hp hf hv] at h
        exact .inl ⟨rfl, by cases h; rfl⟩
      | true =>
        refine .inr ?_
        rw [edge_accepting hp hf hv] at h
        cases hd : decode p.cmd with
        | error x =>
          rw [accept_illegal hd] at h
          exact .inl ⟨x, rfl, by cases h; rfl⟩
        | ok i =>
          obtain ⟨hsrc, -⟩ := withLatched_next (accept_legal hd ▸ h)
          rw [accept_of_defined hd hsrc] at h
          exact .inr ⟨i, rfl, hsrc, by cases h; rfl⟩

/-! ### The invariant of the command in flight -/

theorem sound_of_idle (h : s.inFlight = none) : s.Sound := fun _ hf => by simp [h] at hf

theorem sound_of_inFlight (h : s.inFlight = some f) (hf : f.Sound s) : s.Sound := fun g hg => by
  obtain rfl : f = g := Option.some.inj (h.symm.trans hg)
  exact hf

theorem InFlight.sound_iff_of_ok (hd : decode f.word = .ok i) : f.Sound s ↔
    1 ≤ f.left ∧ (∀ k : Elem → Elem → Result, s.withLatched i k = k f.a f.b) ∧
      ∃ n, f.engine = (Engine.round f.a f.b)^[n] (Engine.start i f.a f.b) := by
  rw [InFlight.Sound, hd]

theorem InFlight.sound_iff_of_error {x : Illegal} (hd : decode f.word = .error x) : f.Sound s ↔
    1 ≤ f.left ∧ f.a = ZERO ∧ f.b = ZERO ∧ f.engine = .idle := by
  rw [InFlight.Sound, hd]

/-- No round starts an idle engine. -/
theorem round_iterate_idle (a b : Elem) (n : Nat) : (Engine.round a b)^[n] .idle = .idle :=
  Function.iterate_fixed rfl n

/-- A busy edge that is not the last keeps the invariant: the engine does some more rounds (R27, R70). -/
theorem InFlight.sound_tick (h : f.Sound s) (hl : 1 < f.left) :
    (f.tick tm).Sound { s with inFlight := some (f.tick tm) } := by
  have hleft : 1 ≤ (f.tick tm).left := Nat.le_sub_of_add_le hl
  cases hd : decode f.word with
  | ok i =>
    obtain ⟨-, hk, n, hn⟩ := (InFlight.sound_iff_of_ok hd).1 h
    refine (InFlight.sound_iff_of_ok (f := f.tick tm) hd).2 ⟨hleft, hk, tm.pace f.word f.a f.b f.left + n, ?_⟩
    rw [Function.iterate_add_apply]
    exact congrArg _ hn
  | error x =>
    obtain ⟨-, ha, hb, he⟩ := (InFlight.sound_iff_of_error hd).1 h
    refine (InFlight.sound_iff_of_error (f := f.tick tm) hd).2 ⟨hleft, ha, hb, ?_⟩
    exact (congrArg _ he).trans (round_iterate_idle ..)

/-- The accepting edge of an illegal word establishes the invariant. -/
theorem sound_illegalAtLaunch {w : Word} {x : Illegal} (hd : decode w = .error x) :
    (InFlight.illegalAtLaunch tm w).Sound s :=
  (InFlight.sound_iff_of_error (f := InFlight.illegalAtLaunch tm w) hd).2 ⟨tm.lat_pos .., rfl, rfl, rfl⟩

/-- The accepting edge of a legal command establishes the invariant: the operands are latched, the engine is at its start. -/
theorem sound_atLaunch {w : Word} (hd : decode w = .ok i) (hsrc : SourcesDefined i s) :
    (InFlight.atLaunch tm w i s).Sound { s with inFlight := some (InFlight.atLaunch tm w i s) } :=
  (InFlight.sound_iff_of_ok (f := InFlight.atLaunch tm w i s) hd).2
    ⟨tm.lat_pos .., fun _ => withLatched_of_defined hsrc _, 0, rfl⟩

/-- Settles O53: an edge leaves nothing in flight, or the same with an edge fewer, or launches a command. -/
theorem edgeKeepsSound : Obligations.EdgeKeepsSound := by
  intro tm p s t hs h
  obtain rfl | ⟨f, -, rfl⟩ | ⟨f, hf, hl, rfl⟩ | ⟨-, rfl⟩ | ⟨x, hd, rfl⟩ | ⟨i, hd, hsrc, rfl⟩ := edge_next h
  · exact sound_of_idle rfl
  · exact sound_of_idle rfl
  · exact sound_of_inFlight rfl (InFlight.sound_tick (hs f hf) hl)
  · exact hs
  · exact sound_of_inFlight rfl (sound_illegalAtLaunch hd)
  · exact sound_of_inFlight rfl (sound_atLaunch hd hsrc)

/-- Settles O52: at reset nothing is in flight. -/
theorem resetIsSound : Obligations.ResetIsSound := sound_of_idle rfl

/-- No command puts another in flight. -/
theorem exec_inFlight (h : exec i s = .next t) : t.inFlight = s.inFlight := by
  obtain ⟨-, rfl⟩ | ⟨-, rfl⟩ := exec_next h
  · exact commit_inFlight s _
  · exact raise_inFlight s _

/-- After a step nothing is in flight (R28). -/
theorem step_inFlight_eq_none (h : step s = .next t) : t.inFlight = none := by
  obtain ⟨rest, -, rfl⟩ | ⟨f, -, rfl⟩ | ⟨hf, -, rfl⟩ | ⟨w, din, rest, x, hf, -, -, rfl⟩ |
    ⟨w, din, rest, i, hf, -, -, he⟩ := step_next h
  · rfl
  · rfl
  · exact hf
  · exact hf
  · simpa [hf] using exec_inFlight he

/-- Settles O54: after a step nothing is in flight. -/
theorem stepKeepsSound : Obligations.StepKeepsSound := fun s t _ h =>
  ⟨sound_of_idle (step_inFlight_eq_none h), by rw [State.busy, step_inFlight_eq_none h]; rfl⟩

/-! ### Completion -/

/-- Whatever rounds the engine has done, what a legal command in flight writes is its effect on the latched operands (R70). -/
theorem effectInFlight_eq_effectOf {n : Nat}
    (hn : f.engine = (Engine.round f.a f.b)^[n] (Engine.start i f.a f.b)) :
    effectInFlight i f = effectOf i f.a f.b := by
  have hresult : f.engine.result f.a f.b = (Engine.start i f.a f.b).result f.a f.b := by
    rw [hn, result_round_iterate]
  cases i with
  | mul rd rs1 rs2 => exact congrArg (mulEffect rd) (hresult.trans (result_mulStart ..))
  | pow rd rs1 rs2 len => exact congrArg (powEffect rd) (hresult.trans (result_powStart ..))
  | inv rd rs1 =>
    by_cases ha : f.a = ZERO
    · simp [effectInFlight, effectOf, invEffect, ha]
    · rw [Engine.start, if_neg ha, result_invStart] at hresult
      exact congrArg (invEffect rd f.a) hresult
  | _ => rfl

theorem InFlight.effect_of_ok (hd : decode f.word = .ok i) : f.effect = effectInFlight i f := by
  rw [InFlight.effect, hd]

theorem InFlight.effect_of_error {x : Illegal} (hd : decode f.word = .error x) : f.effect = .error .illegal := by
  rw [InFlight.effect, hd]

/-- A word that decodes is a well-formed command (R45). -/
theorem wellFormed_of_decode {w : Word} (hd : decode w = .ok i) : i.wellFormed = true :=
  (legalWordIsEncodingOfItsInstruction w i hd).1

/-- Settles O55: in a sound state the effect in flight is the effect that `exec` commits. -/
theorem soundCommandInFlightCompletesAsExec : Obligations.SoundCommandInFlightCompletesAsExec := by
  intro s f i hs hf hd hh
  obtain ⟨-, hk, n, hn⟩ := (InFlight.sound_iff_of_ok hd).1 (hs f hf)
  refine ⟨s.commit (effectOf i f.a f.b), ?_, ?_⟩
  · rw [exec_eq_withLatched (wellFormed_of_decode hd), hk]
  · rw [step_inFlight hf hh, State.complete, InFlight.effect_of_ok hd, effectInFlight_eq_effectOf hn]

end Sys2Proof.Machine
end

section
/-! PROOFS, the clock level (R21, R23, R29, R97): busy edges, the LAT edges after acceptance against the atomic step, and where
`din` matters. -/
namespace Sys2Proof.Machine
variable {tm : Config.Timing} {p : Pins} {s : State} {f : InFlight} {i : Instr}

/-- Settles O50: such an edge is `edge_busy`, whose `tick` touches the number of edges left and the engine alone. -/
theorem busyEdgeChangesNothingVisible : Obligations.BusyEdgeChangesNothingVisible := fun tm _ _ f hp hf hl =>
  ⟨_, f.tick tm, edge_busy hp hf hl, rfl, rfl, rfl, rfl, rfl⟩

/-- Settles O51: the port's definition, and `edge_waiting`. -/
theorem readyExactlyWhenIdle : Obligations.ReadyExactlyWhenIdle :=
  ⟨fun _ => ⟨rfl, rfl⟩, fun _ _ _ hf hp hv => edge_waiting hp hf hv⟩

/-! ### From acceptance to completion -/

/-- However many rounds a busy edge does, what is written at completion stays the same (R70). -/
theorem InFlight.effect_tick (f : InFlight) : (f.tick tm).effect = f.effect := by
  have hresult : (f.tick tm).engine.result f.a f.b = f.engine.result f.a f.b := result_round_iterate ..
  cases hd : decode f.word with
  | error x => rw [InFlight.effect_of_error (f := f.tick tm) hd, InFlight.effect_of_error hd]
  | ok i =>
    rw [InFlight.effect_of_ok (f := f.tick tm) hd, InFlight.effect_of_ok hd]
    cases i with
    | mul rd rs1 rs2 => exact congrArg (mulEffect rd) hresult
    | pow rd rs1 rs2 len => exact congrArg (powEffect rd) hresult
    | inv rd rs1 => exact congrArg (invEffect rd f.a) hresult
    | _ => rfl

/-- What a command just launched has to write (R27). -/
theorem InFlight.effect_atLaunch {w : Word} (hd : decode w = .ok i) :
    (InFlight.atLaunch tm w i s).effect = effectOf i (latchedOperands i s).1 (latchedOperands i s).2 := by
  rw [InFlight.effect_of_ok (f := InFlight.atLaunch tm w i s) hd]
  exact effectInFlight_eq_effectOf (n := 0) rfl

theorem InFlight.effect_illegalAtLaunch {w : Word} {x : Illegal} (hd : decode w = .error x) :
    (InFlight.illegalAtLaunch tm w).effect = .error .illegal :=
  InFlight.effect_of_error (f := InFlight.illegalAtLaunch tm w) hd

/-- Before the last one, the edges of a busy block change nothing but the hidden state in flight, whatever is driven (R21). -/
theorem edges_busy (ps : List Pins) (hps : ∀ q ∈ ps, q.rstN = true) (s : State) (f : InFlight)
    (hl : ps.length < f.left) :
    ∃ g, edges tm ps { s with inFlight := some f } = .next { s with inFlight := some g } := by
  induction ps generalizing f with
  | nil => exact ⟨f, rfl⟩
  | cons q ps ih =>
    rw [List.length_cons] at hl
    obtain ⟨g, hg⟩ := ih (fun q' hq' => hps q' (List.mem_cons_of_mem _ hq')) (f.tick tm) (Nat.lt_sub_of_add_lt hl)
    refine ⟨g, ?_⟩
    rw [edges, edge_busy (hps q List.mem_cons_self) rfl (by omega)]
    exact hg

/-- Nothing being in flight besides, completion is a commit (R21). -/
theorem complete_of_only_inFlight (hs : s.inFlight = none) (f : InFlight) :
    ({ s with inFlight := some f } : State).complete f = s.commit f.effect := by
  obtain ⟨e, edef, t, ill, dom, dout, inFlight, din, host⟩ := s
  cases hs
  rw [State.complete]
  cases f.effect with
  | error k => cases k <;> rfl
  | _ => rfl

/-- The edge at which no more edges are left writes what the command in flight has to write (R21, R97). -/
theorem edges_completing (ps : List Pins) (hps : ∀ q ∈ ps, q.rstN = true) (hs : s.inFlight = none) (f : InFlight)
    (hpos : 1 ≤ f.left) (hl : ps.length = f.left) :
    edges tm ps { s with inFlight := some f } = .next (s.commit f.effect) := by
  induction ps generalizing f with
  | nil => exact absurd hl (Nat.ne_of_lt hpos)
  | cons q ps ih =>
    rw [List.length_cons] at hl
    have hq := hps q List.mem_cons_self
    cases ps with
    | nil =>
      rw [edges, edge_completing hq rfl hl.ge, complete_of_only_inFlight hs]
      rfl
    | cons q' ps =>
      rw [List.length_cons] at hl
      rw [edges, edge_busy hq rfl (by omega), ← f.effect_tick (tm := tm)]
      exact ih (fun r hr => hps r (List.mem_cons_of_mem _ hr)) (f.tick tm) (Nat.le_sub_of_add_le (by omega))
        (Nat.eq_sub_of_add_eq hl)

/-- An edge that leaves a command in flight, and the edges up to its completion. -/
theorem edges_after_launch {s' : State} {ps : List Pins} (hps : ∀ q ∈ ps, q.rstN = true) (hs' : s'.inFlight = none)
    (hpos : 1 ≤ f.left) (h : edge tm p s = .next { s' with inFlight := some f }) :
    1 ≤ f.left ∧ (ps.length < f.left → ∃ g, edges tm (p :: ps) s = .next { s' with inFlight := some g }) ∧
      (ps.length = f.left → edges tm (p :: ps) s = .next (s'.commit f.effect)) := by
  rw [edges, h]
  exact ⟨hpos, edges_busy ps hps s' f, edges_completing ps hps hs' f hpos⟩

/-- A legal command with defined sources, from its acceptance to its completion, LD's sample of `din` being taken first. -/
theorem edges_of_legal {ps : List Pins} (hs : s.inFlight = none) (hp : p.rstN = true) (hv : p.cmdValid = true)
    (hps : ∀ q ∈ ps, q.rstN = true) (hd : decode p.cmd = .ok i) (hsrc : SourcesDefined i (s.sampleDin i p.din)) :
    let s' := s.sampleDin i p.din
    let lat := tm.lat p.cmd (latchedOperands i s').1 (latchedOperands i s').2
    1 ≤ lat ∧ (ps.length < lat → ∃ g, edges tm (p :: ps) s = .next { s' with inFlight := some g }) ∧
      (ps.length = lat → edges tm (p :: ps) s = exec i s') := by
  intro s' lat
  have hs' : s'.inFlight = none := (sampleDin_inFlight ..).trans hs
  have hedge := (edge_accepting (tm := tm) hp hs hv).trans (accept_of_defined hd hsrc)
  rw [exec_of_defined (wellFormed_of_decode hd) hsrc, ← InFlight.effect_atLaunch (tm := tm) hd]
  exact edges_after_launch hps hs' (tm.lat_pos ..) hedge

/-- Settles O48: the legal commands are `edges_of_legal`, LD apart because it alone samples `din`; an illegal word is launched
with nothing to do but its error; and an undefined source stops the accepting edge. -/
theorem edgesRefineTheAtomicStep : Obligations.EdgesRefineTheAtomicStep := by
  refine fun tm s p ps hs hp hv hps => ⟨fun rd hd => ?_, fun i hd hi hsrc => ?_, fun x hd => ?_, fun i r hd hr => ?_⟩
  · exact edges_of_legal hs hp hv hps hd (by simp [SourcesDefined, sources])
  · simpa only [sampleDin_of_not_ld s p.din hi] using
      edges_of_legal (tm := tm) hs hp hv hps hd (by rwa [sampleDin_of_not_ld s p.din hi])
  · have hedge := (edge_accepting (tm := tm) hp hs hv).trans (accept_illegal hd)
    have hrun := edges_after_launch hps hs (tm.lat_pos ..) hedge
    rwa [InFlight.effect_illegalAtLaunch hd] at hrun
  · rw [edge_accepting hp hs hv, accept_legal hd, withLatched_of_undefined (by simpa using hr)]

/-! ### Where `din` matters (R23, R29) -/

/-- Settles O49: only LD's `sampleDin` looks at the port, and a busy edge looks at no pin but `rst_n`. -/
theorem dinMattersToLdAlone : Obligations.DinMattersToLdAlone := by
  refine ⟨?_, ?_, ?_⟩
  · intro s t w x y rest hld hf hh ht
    have hft : t.inFlight = none := by rw [ht, hf]
    have hht : t.host = .command w y :: rest := by rw [ht]
    have hacc : s.acceptHead rest = t.acceptHead rest := by rw [ht]; rfl
    cases hd : decode w with
    | error e => rw [step_illegal hf hh hd, step_illegal hft hht hd, hacc]
    | ok i =>
      have hi : ∀ rd, i ≠ .ld rd := fun rd h => hld rd (h ▸ hd)
      rw [step_instruction hf hh hd, step_instruction hft hht hd, sampleDin_of_not_ld _ _ hi,
        sampleDin_of_not_ld _ _ hi, hacc]
  · intro tm s p x hld hf
    have haccept : s.accept tm p = s.accept tm { p with din := x } := by
      cases hd : decode p.cmd with
      | error e => rw [accept_illegal hd, accept_illegal (p := { p with din := x }) hd]
      | ok i =>
        have hi : ∀ rd, i ≠ .ld rd := fun rd h => hld rd (h ▸ hd)
        rw [accept_legal hd, accept_legal (p := { p with din := x }) hd, sampleDin_of_not_ld _ _ hi,
          sampleDin_of_not_ld _ _ hi]
    simp only [edge, hf, haccept]
  · intro tm s p q hf hp hq
    obtain ⟨f, hf⟩ := Option.isSome_iff_exists.1 hf
    by_cases hl : f.left ≤ 1
    · rw [edge_completing hp hf hl, edge_completing hq hf hl]
    · rw [edge_busy hp hf (by omega), edge_busy hq hf (by omega)]

end Sys2Proof.Machine
end

section
/-! PROOFS, the laws of SQR, ROT and TRC (R56, R58, R60): each is about where a coefficient moves. -/
namespace Sys2Proof.Machine

/-- R56: squaring is additive, coefficient by coefficient. -/
theorem fieldSqr_fieldAdd (a b : Elem) : fieldSqr (fieldAdd a b) = fieldAdd (fieldSqr a) (fieldSqr b) := by
  refine elem_ext fun i hi => ?_
  rw [getLsbD_fieldAdd, getLsbD_fieldSqr _ hi, getLsbD_fieldSqr _ hi, getLsbD_fieldSqr _ hi, getLsbD_fieldAdd]

/-- Settles O19: the square is the product by itself, and 233 squarings are the rotation by 0. -/
theorem squaringLaws : Obligations.SquaringLaws :=
  ⟨fun a => (fieldMul_self a).symm, fieldSqr_fieldAdd,
    fun a => (fieldSqr_iterate_eq_fieldRot a 233).trans (fieldRot_zero a), by decide, by decide⟩

/-- R57: a rotation amount counts modulo 233. -/
theorem fieldRot_mod (a : Elem) (k : Nat) : fieldRot a (k % 233) = fieldRot a k := by
  rw [fieldRot, fieldRot, Nat.mod_mod]

/-- R58: rotations compose. -/
theorem fieldRot_fieldRot (a : Elem) (k1 k2 : Nat) : fieldRot (fieldRot a k1) k2 = fieldRot a ((k1 + k2) % 233) := by
  refine elem_ext fun i hi => ?_
  rw [getLsbD_fieldRot _ k2 hi, getLsbD_fieldRot a k1 (Nat.mod_lt _ (by decide)), getLsbD_fieldRot a _ hi]
  congr 1
  omega

/-- Settles O21: `fieldSqr_iterate_eq_fieldRot` at 1, at 232 and at every n up to 232. -/
theorem rotationAndSquaringRelations : Obligations.RotationAndSquaringRelations := by
  refine ⟨fun a => (fieldSqr_iterate_eq_fieldRot a 1).symm, fieldSqr_fieldRot_one,
    fun a => (fieldSqr_iterate_eq_fieldRot a 232).symm, by decide, fun a n hn => ?_, fieldRot_fieldRot⟩
  rw [fieldSqr_iterate_eq_fieldRot, Nat.mod_eq_of_lt (Nat.lt_succ_of_le hn)]

/-- R60: the trace is additive. -/
theorem fieldTrace_fieldAdd (a b : Elem) : fieldTrace (fieldAdd a b) = (fieldTrace a ^^ fieldTrace b) := by
  rw [fieldTrace, fieldTrace, fieldTrace, ← xorBelow_xor]
  exact xorBelow_congr fun i _ => getLsbD_fieldAdd a b i

/-- R60: a rotation only reorders the coefficients that the trace adds up. -/
theorem fieldTrace_fieldRot (a : Elem) (k : Nat) : fieldTrace (fieldRot a k) = fieldTrace a := by
  rw [fieldTrace, fieldTrace, xorBelow_congr fun i hi => getLsbD_fieldRot a k hi]
  exact xorBelow_rotate (Nat.sub_le _ _)

/-- Settles O23: SQR is a rotation, and the trace of ONE is the parity of 233. -/
theorem traceLaws : Obligations.TraceLaws := by
  refine ⟨fieldTrace_fieldAdd, fun a => ?_, fieldTrace_fieldRot, by decide +kernel, by decide +kernel⟩
  rw [← Function.iterate_one fieldSqr, fieldSqr_iterate_eq_fieldRot, fieldTrace_fieldRot]

end Sys2Proof.Machine
end

section
/-! PROOFS, the closed form of the product (R70), the meaning of POW (R74), and the operation counts (R74, R77, R96). -/
namespace Sys2Proof.Machine

/-- R70: coefficient `232 - k` of the product, in the rule's own indices. -/
theorem getLsbD_fieldMul_closedForm (a b : Elem) {k : Nat} (hk : k ≤ 232) : (fieldMul a b).getLsbD (232 - k) =
    xorList matrix fun ij => a.getLsbD (232 - (ij.1 + k) % 233) && b.getLsbD (232 - (ij.2 + k) % 233) := by
  rw [getLsbD_fieldMul a b (by omega)]
  refine xorList_congr fun ij hij => ?_
  obtain ⟨h1, h2⟩ := matrix_bounds ij hij
  congr 2 <;> omega

/-- Settles O28: `getLsbD_fieldMul_closedForm`, and the rounds compute the same product. -/
theorem productClosedForm : Obligations.ProductClosedForm := by
  intro a b k hk
  have hclosed := getLsbD_fieldMul_closedForm a b hk
  rw [fieldMulByRounds_eq, List.foldl_map]
  exact ⟨hclosed, hclosed⟩

/-- R74: the exponent's `len` coefficients are the number of times that POW multiplies by `a`. -/
theorem fieldPow_eq_selfProduct (a x : Elem) (len : Nat) : fieldPow a x len = selfProduct a (x.toNat % 2 ^ len) :=
  eq_of_embed fun K _ _ ζ hζ => by rw [embed_fieldPow hζ, embed_selfProduct hζ]

/-- R74, R78: the power of an element other than ZERO by `2^233 - 1` is ONE. -/
theorem fieldPow_order {a : Elem} (h : a ≠ ZERO) : fieldPow a ONE 233 = ONE :=
  eq_of_embed fun K _ _ ζ hζ => by
    have hexp : ONE.toNat % 2 ^ 233 = 2 ^ 233 - 1 := by decide
    rw [embed_fieldPow hζ, hexp, embed_pow_order hζ h, embed_one hζ]

/-- Settles O31: each power by its lemma. -/
theorem powIsRepeatedMultiplication : Obligations.PowIsRepeatedMultiplication :=
  ⟨fun a x len _ => fieldPow_eq_selfProduct a x len, fun a h => ⟨fieldPow_order h, (fieldInv_eq_fieldPow a).symm⟩⟩

/-- The number of exponent bits set among the lowest `n` (R74). -/
def bitsSet (x : Elem) (n : Nat) : Nat := ((List.range n).filter fun i => x.getLsbD i).length

theorem bitsSet_succ (x : Elem) (n : Nat) : bitsSet x (n + 1) = bitsSet x n + (x.getLsbD n).toNat := by
  rw [bitsSet, List.range_succ, List.filter_append, List.length_append, ← bitsSet]
  cases h : x.getLsbD n <;> simp [h]

/-- R74: each subsequent bit costs a squaring, and a multiplication if it is set. -/
theorem powLoop_cost (c : Cost) (x : Elem) (n : Nat) (r : Cost) :
    powLoop costOps c x n r = ⟨r.sqr + n, r.mul + bitsSet x n⟩ := by
  induction n generalizing r with
  | zero => rfl
  | succ n ih =>
    rw [powLoop, ih, bitsSet_succ]
    cases x.getLsbD n <;> simp [powBit, costOps] <;> omega

/-- R74: the first bit costs a multiplication if it is set, and no squaring. -/
theorem powCost_eq (x : Elem) (len : Nat) : powCost x len = ⟨len - 1, bitsSet x len⟩ := by
  cases len with
  | zero => rfl
  | succ n =>
    rw [powCost, powWith, powLoop_cost, bitsSet_succ]
    cases h : x.getLsbD n <;> simp [powFirst, h, costOps, Nat.add_comm]

/-- Settles O35: POW bit by bit; INV has one control flow for every element, and it is run on counts. -/
theorem operationCounts : Obligations.OperationCounts := ⟨powCost_eq, by decide +kernel⟩

end Sys2Proof.Machine
end

section
/-! PROOFS, frames (R17, R18, R34, R48): what an effect, a command and a step leave as it was. -/
namespace Sys2Proof.Machine
variable {i : Instr} {s t : State}

/-- Raising an error changes no register (R79). -/
@[simp] theorem raise_reg (s : State) (x : ErrorKind) (r : Reg) : (s.raise x).reg r = s.reg r := by
  cases x <;> rfl

@[simp] theorem raise_isDefined (s : State) (x : ErrorKind) (r : Reg) : (s.raise x).isDefined r = s.isDefined r := by
  cases x <;> rfl

/-- An effect writes no register but the one it names. -/
theorem commit_reg_of_ne {x : Effect} {r : Reg} (hx : ∀ v, x ≠ .element r v) :
    (s.commit x).reg r = s.reg r ∧ (s.commit x).isDefined r = s.isDefined r := by
  cases x with
  | element rd v =>
    have hr : r ≠ rd := fun h => hx v (h ▸ rfl)
    exact ⟨reg_writeReg_ne s r rd v hr, isDefined_writeReg_ne s r rd v hr⟩
  | error k => exact ⟨raise_reg s k r, raise_isDefined s k r⟩
  | _ => exact ⟨rfl, rfl⟩

/-- R17: a command that completes writes no register but its destination. -/
theorem exec_reg_of_ne_destination (h : exec i s = .next t) {r : Reg} (hr : destination i ≠ some r) :
    t.reg r = s.reg r ∧ t.isDefined r = s.isDefined r := by
  obtain ⟨-, rfl⟩ | ⟨-, rfl⟩ := exec_next h
  · exact commit_reg_of_ne fun v hv => hr (effectOf_element hv)
  · exact ⟨raise_reg s _ r, raise_isDefined s _ r⟩

/-- Settles O37: the frame of `exec`, whose effect names no register but the destination. -/
theorem commandWritesOnlyItsDestination : Obligations.CommandWritesOnlyItsDestination :=
  fun _ _ _ h _ hr => exec_reg_of_ne_destination h hr

/-- A well-formed command that completes read defined sources and wrote its effect. -/
theorem exec_next_of_wellFormed (hw : i.wellFormed = true) (h : exec i s = .next t) :
    SourcesDefined i s ∧ t = s.commit (effectOf i (latchedOperands i s).1 (latchedOperands i s).2) := by
  obtain hnext | ⟨hf, -⟩ := exec_next h
  · exact hnext
  · exact absurd (hw.symm.trans hf) (by decide)

/-- A command with a destination writes it, unless it is INV and raises DOMAIN (R75). -/
theorem effectOf_of_destination {rd : Reg} (hd : destination i = some rd) (a b : Elem) :
    (∃ v, effectOf i a b = .element rd v) ∨ (∃ rs1, i = .inv rd rs1) ∧ effectOf i a b = .error .domain := by
  cases i with
  | inv rd' rs1 =>
    cases hd
    obtain h | h := invEffect_cases rd a (fieldInv a)
    · exact .inr ⟨⟨rs1, rfl⟩, h⟩
    · exact .inl ⟨_, h⟩
  | nop | st | clr | trc => cases hd
  | _ => cases hd; exact .inl ⟨_, rfl⟩

/-- Settles O38: such a command's effect is a write of its register, or DOMAIN. -/
theorem elementCommandsFrame : Obligations.ElementCommandsFrame := by
  intro i s t hdest hw h
  obtain ⟨rd, hrd⟩ := Option.isSome_iff_exists.1 hdest
  obtain ⟨-, rfl⟩ := exec_next_of_wellFormed hw h
  obtain ⟨v, hv⟩ | ⟨⟨rs1, rfl⟩, hv⟩ :=
    effectOf_of_destination hrd (latchedOperands i s).1 (latchedOperands i s).2
  · rw [hv]
    exact ⟨rfl, rfl, rfl, fun _ => rfl, rfl, rfl, rfl⟩
  · rw [hv]
    exact ⟨rfl, rfl, rfl, fun hinv => absurd rfl (hinv rd rs1), rfl, rfl, rfl⟩

/-- No command undefines a register. -/
theorem exec_isDefined (h : exec i s = .next t) {r : Reg} (hr : s.isDefined r = true) : t.isDefined r = true := by
  obtain ⟨-, rfl⟩ | ⟨-, rfl⟩ := exec_next h
  · exact isDefined_commit s r _ hr
  · exact isDefined_commit s r (.error .illegal) hr

/-- Settles O41: of the five things a step can do, only a reset undefines a register. -/
theorem definedUntilReset : Obligations.DefinedUntilReset := by
  intro s t r h hr
  obtain ⟨rest, hh, -⟩ | ⟨f, -, rfl⟩ | ⟨-, -, rfl⟩ | ⟨w, din, rest, x, -, -, -, rfl⟩ | ⟨w, din, rest, i, -, -, -, he⟩ :=
    step_next h
  · exact .inr ⟨rest, hh⟩
  · exact .inl (isDefined_commit s r f.effect hr)
  · exact .inl hr
  · exact .inl (isDefined_commit (s.acceptHead rest) r (.error .illegal) hr)
  · exact .inl (exec_isDefined he (by simpa using hr))

/-! ### Repeating a command (R34) -/

/-- A second write of the same value changes nothing. -/
theorem writeReg_writeReg (s : State) (rd : Reg) (v : Elem) : (s.writeReg rd v).writeReg rd v = s.writeReg rd v := by
  simp [State.writeReg]

/-- Committing an effect twice is committing it once. -/
theorem commit_commit (s : State) (x : Effect) : (s.commit x).commit x = s.commit x := by
  cases x with
  | element rd v => exact writeReg_writeReg s rd v
  | error k => cases k <;> rfl
  | _ => rfl

/-- What a command latches depends on its sources and the sampled `din` alone. -/
theorem latchedOperands_congr (hr : ∀ r ∈ sources i, t.reg r = s.reg r) (hdin : t.din = s.din) :
    latchedOperands i t = latchedOperands i s := by
  cases i <;> simp_all [latchedOperands, samplesDin, sources]

/-- Settles O42: the command reads the same operands again, and commits the same effect. -/
theorem repeatingACommandIsIdempotent : Obligations.RepeatingACommandIsIdempotent := by
  intro i s t hw hdest h
  have hframe : ∀ r ∈ sources i, t.reg r = s.reg r ∧ t.isDefined r = s.isDefined r := fun r hr =>
    exec_reg_of_ne_destination h fun hrd => hdest r hrd hr
  obtain ⟨hsrc, ht⟩ := exec_next_of_wellFormed hw h
  have hsrc' : SourcesDefined i t := fun r hr => (hframe r hr).2.trans (hsrc r hr)
  have hops : latchedOperands i t = latchedOperands i s :=
    latchedOperands_congr (fun r hr => (hframe r hr).1) (by rw [ht, commit_din])
  rw [exec_of_defined hw hsrc', hops, ht, commit_commit]

end Sys2Proof.Machine
end

section
/-! PROOFS, the step (R48) and the model's conventions (logs 3, 8, 12); and two closed facts, the tabled words and the reset values. -/
namespace Sys2Proof.Machine
variable {i : Instr} {s t : State}

/-- ILL turns only by raising ILLEGAL or by CLR's effect (R20). -/
theorem commit_ill_of_ne {x : Effect} (hx : x ≠ .error .illegal) (hclr : x ≠ .clear) : (s.commit x).ill = s.ill := by
  cases x with
  | clear => exact absurd rfl hclr
  | error k =>
    cases k with
    | illegal => exact absurd rfl hx
    | domain => rfl
  | _ => rfl

/-- DOM turns only by raising DOMAIN or by CLR's effect (R20). -/
theorem commit_dom_of_ne {x : Effect} (hx : x ≠ .error .domain) (hclr : x ≠ .clear) : (s.commit x).dom = s.dom := by
  cases x with
  | clear => exact absurd rfl hclr
  | error k =>
    cases k with
    | illegal => rfl
    | domain => exact absurd rfl hx
  | _ => rfl

/-- No legal command's effect is ILLEGAL (R80). -/
theorem effectOf_ne_illegal (i : Instr) (a b : Elem) : effectOf i a b ≠ .error .illegal := by
  cases i with
  | inv rd rs1 => obtain h | h := invEffect_cases rd a (fieldInv a) <;> simp [effectOf, h]
  | _ => exact Effect.noConfusion

/-- Of the well-formed commands, CLR alone changes ILL (R52, R80). -/
theorem eq_clr_of_exec_ill_ne (hw : i.wellFormed = true) (h : exec i s = .next t) (hill : t.ill ≠ s.ill) : i = .clr := by
  by_contra hi
  obtain ⟨-, rfl⟩ := exec_next_of_wellFormed hw h
  exact hill (commit_ill_of_ne (effectOf_ne_illegal i _ _) (effectOf_ne_clear hi _ _))

/-- Only CLR and INV of ZERO change DOM (R52, R81). -/
theorem eq_clr_or_inv_of_exec_dom_ne (hw : i.wellFormed = true) (h : exec i s = .next t) (hdom : t.dom ≠ s.dom) :
    i = .clr ∨ ∃ rd rs1, i = .inv rd rs1 ∧ s.reg rs1 = ZERO := by
  by_cases hi : i = .clr
  · exact .inl hi
  · obtain ⟨-, rfl⟩ := exec_next_of_wellFormed hw h
    have hx : effectOf i (latchedOperands i s).1 (latchedOperands i s).2 = .error .domain := by
      by_contra hx
      exact hdom (commit_dom_of_ne hx (effectOf_ne_clear hi _ _))
    obtain ⟨⟨rd, rs1, rfl⟩, hz⟩ := eq_inv_of_effectOf_domain hx
    exact .inr ⟨rd, rs1, rfl, hz⟩

/-- The step of an accepted command other than LD, which samples nothing (R23, R48). -/
theorem step_of_not_ld {w : Word} {din : Elem} {rest : List HostAction} (hf : s.inFlight = none)
    (hh : s.host = .command w din :: rest) (hd : decode w = .ok i) (hi : ∀ rd, i ≠ .ld rd) :
    step s = exec i (s.acceptHead rest) := by
  rw [step_instruction hf hh hd, sampleDin_of_not_ld _ _ hi]

/-- Settles O7: the step is `step_instruction` or `step_illegal`, and the frame is that of `exec`. -/
theorem stepRunsDecodedInstruction : Obligations.StepRunsDecodedInstruction := by
  refine fun s w din rest hf hh => ⟨fun rd hd => step_instruction hf hh hd, fun i hd hi => step_of_not_ld hf hh hd hi,
    fun i r hd hr => ?_, fun x hd => step_illegal hf hh hd, fun rd rs1 hd hdef hz => ?_, fun i t hd h => ?_⟩
  · rw [step_instruction hf hh hd]
    exact exec_of_undefined (wellFormed_of_decode hd) (by simpa using hr)
  · rw [step_of_not_ld hf hh hd (by simp)]
    exact exec_inv_of_zero hdef hz
  · rw [step_instruction hf hh hd] at h
    have hw := wellFormed_of_decode hd
    refine ⟨fun r hr => ?_, fun ht => ?_, fun hdout => ?_, fun hill => ?_, fun hdom => ?_⟩
    · simpa using exec_reg_of_ne_destination h hr
    · exact eq_trc_of_exec_t_ne h (by simpa using ht)
    · exact eq_st_of_exec_dout_ne h (by simpa using hdout)
    · exact eq_clr_of_exec_ill_ne hw h (by simpa using hill)
    · simpa using eq_clr_or_inv_of_exec_dom_ne hw h (by simpa using hdom)

/-- Sampling the value that was sampled already changes nothing. -/
theorem sampleDin_self (s : State) (i : Instr) : s.sampleDin i s.din = s := by
  unfold State.sampleDin
  split <;> rfl

/-- Settles O9: the block waits, `withFetchWord` offers exactly the word, and an ill-formed POW raises ILLEGAL. -/
theorem conventionsOfTheStep : Obligations.ConventionsOfTheStep := by
  refine ⟨fun _ => step_idle, fun s w i hd => ?_, fun rd rs1 rs2 len s hlen => ?_⟩
  · have hd' : decode (BitVec.ofNat 32 (w.toNat % 2 ^ 32)) = .ok i := by
      rw [Nat.mod_eq_of_lt w.isLt, BitVec.ofNat_toNat, BitVec.setWidth_eq, hd]
    rw [step_instruction (s := s.withFetchWord 32 w.toNat) rfl rfl hd']
    exact congrArg _ (sampleDin_self ({ s with inFlight := none } : State) i)
  · exact exec_of_illFormed (by simpa [Instr.wellFormed] using hlen) s

/-- Settles O5: eleven words, each decoded. -/
theorem tabledWordsDecode : Obligations.TabledWordsDecode := by
  unfold Obligations.TabledWordsDecode
  decide

/-- Settles O43: `isDefined_reset`, and the other items are the reset state's fields. -/
theorem resetLeavesSpecValues : Obligations.ResetLeavesSpecValues :=
  ⟨isDefined_reset, rfl, rfl, rfl, rfl, rfl, by decide⟩

end Sys2Proof.Machine
end

section
/-! PROOFS, a host's program that passes `bootChecked` (R92): what is known of the registers stays so, and no step stops. -/
namespace Sys2Proof.Machine
variable {i : Instr} {s t : State}

/-! ### Operations that keep an element from being ZERO (R58, R71, R74, R78) -/

theorem ne_zero_of_embed {a : Elem} (h : ∀ (K : Type) (_ : Field K) (_ : CharP K 2) (ζ : K), IsPrimitiveRoot ζ 467 →
    embed ζ a ≠ 0) : a ≠ ZERO := by
  rintro rfl
  obtain ⟨K, i1, i2, ζ, hζ⟩ := exists_field
  exact h K i1 i2 ζ hζ embed_zero

theorem fieldMul_ne_zero {a b : Elem} (ha : a ≠ ZERO) (hb : b ≠ ZERO) : fieldMul a b ≠ ZERO :=
  ne_zero_of_embed fun K _ _ ζ hζ => by
    rw [embed_mul hζ]
    exact mul_ne_zero (embed_ne_zero hζ ha) (embed_ne_zero hζ hb)

theorem fieldPow_ne_zero {a : Elem} (x : Elem) (len : Nat) (ha : a ≠ ZERO) : fieldPow a x len ≠ ZERO :=
  ne_zero_of_embed fun K _ _ ζ hζ => by
    rw [embed_fieldPow hζ]
    exact pow_ne_zero _ (embed_ne_zero hζ ha)

theorem fieldInv_ne_zero {a : Elem} (ha : a ≠ ZERO) : fieldInv a ≠ ZERO := fun h =>
  one_ne_zero_elem (by rw [← fieldMul_fieldInv ha, h, fieldMul_zero])

/-- A rotation by `k` is a number of squarings, the number of places that it is short of a full turn. -/
theorem fieldRot_eq_fieldSqr_iterate (a : Elem) (k : Nat) : fieldRot a k = fieldSqr^[233 - k % 233] a := by
  rw [fieldSqr_iterate_eq_fieldRot, ← fieldRot_mod a k]
  congr 1
  omega

theorem fieldRot_ne_zero {a : Elem} (k : Nat) (ha : a ≠ ZERO) : fieldRot a k ≠ ZERO :=
  ne_zero_of_embed fun K _ _ ζ hζ => by
    rw [fieldRot_eq_fieldSqr_iterate, embed_sqr_iterate hζ]
    exact pow_ne_zero _ (embed_ne_zero hζ ha)

theorem fieldSqr_ne_zero {a : Elem} (ha : a ≠ ZERO) : fieldSqr a ≠ ZERO := by
  rw [← fieldMul_self]
  exact fieldMul_ne_zero ha ha

/-! ### What is known of the registers -/

/-- What is known of each register is so. -/
def KnownHolds (d : Vector Known 8) (s : State) : Prop := ∀ r : Reg, (d.get r).Holds s r

theorem get_set_self (d : Vector Known 8) (r : Reg) (k : Known) : (d.set r k).get r = k := by
  simp [Vector.get_eq_getElem]

theorem get_set_ne (d : Vector Known 8) {r rd : Reg} (k : Known) (h : r ≠ rd) : (d.set rd k).get r = d.get r := by
  have : (rd : Nat) ≠ (r : Nat) := fun hh => h (Fin.ext hh.symm)
  simp [Vector.get_eq_getElem, Vector.getElem_set_ne, this]

/-- What is known depends on the register's value and definedness alone. -/
theorem Known.holds_congr {r : Reg} (k : Known) (hreg : t.reg r = s.reg r) (hdef : t.isDefined r = s.isDefined r) :
    k.Holds t r ↔ k.Holds s r := by
  cases k <;> simp [Known.Holds, hreg, hdef]

theorem KnownHolds.congr {d : Vector Known 8} (h : KnownHolds d s)
    (hreg : ∀ r, t.reg r = s.reg r ∧ t.isDefined r = s.isDefined r) : KnownHolds d t := fun r =>
  ((d.get r).holds_congr (hreg r).1 (hreg r).2).2 (h r)

/-- Something is known of a register only if it is defined. -/
theorem Known.isDefined {k : Known} {r : Reg} (h : k.Holds s r) (hk : k ≠ .nothing) : s.isDefined r = true := by
  cases k with
  | nothing => exact absurd rfl hk
  | written => exact h
  | nonzero => exact h.1

theorem Known.ne_zero {r : Reg} {k : Known} (h : k.Holds s r) (hk : k = .nonzero) : s.reg r ≠ ZERO := by
  cases hk
  exact h.2

/-- A register written holds what is known of it, provided that it is not ZERO where that is known. -/
theorem Known.holds_writeReg (k : Known) (rd : Reg) {v : Elem} (hv : k = .nonzero → v ≠ ZERO) :
    k.Holds (s.writeReg rd v) rd := by
  cases k with
  | nothing => trivial
  | written => exact isDefined_writeReg_self s rd v
  | nonzero => exact ⟨isDefined_writeReg_self s rd v, by rw [reg_writeReg_self]; exact hv rfl⟩

/-- Knowledge of the register written is replaced, and the rest is kept. -/
theorem KnownHolds.set_writeReg {d : Vector Known 8} (h : KnownHolds d s) (k : Known) (rd : Reg) {v : Elem}
    (hv : k = .nonzero → v ≠ ZERO) : KnownHolds (d.set rd k) (s.writeReg rd v) := by
  intro r
  by_cases hr : r = rd
  · rw [hr, get_set_self]
    exact k.holds_writeReg rd hv
  · rw [get_set_ne d k hr, (d.get r).holds_congr (reg_writeReg_ne s r rd v hr) (isDefined_writeReg_ne s r rd v hr)]
    exact h r

/-- A value that is not ZERO agrees with whatever was known of the register written. -/
theorem KnownHolds.writeReg_of_ne_zero {d : Vector Known 8} (h : KnownHolds d s) (rd : Reg) {v : Elem} (hv : v ≠ ZERO) :
    KnownHolds d (s.writeReg rd v) := by
  intro r
  by_cases hr : r = rd
  · rw [hr]
    exact (d.get rd).holds_writeReg rd fun _ => hv
  · rw [(d.get r).holds_congr (reg_writeReg_ne s r rd v hr) (isDefined_writeReg_ne s r rd v hr)]
    exact h r

/-- INV of a value known not to be ZERO writes one that is not ZERO; of any other it writes such a value or nothing (R75). -/
theorem knownHolds_after_inv {d : Vector Known 8} (h : KnownHolds d s) (rd rs1 : Reg) (din : Elem) :
    KnownHolds (knownAfter (.inv rd rs1) din d) (s.commit (invEffect rd (s.reg rs1) (fieldInv (s.reg rs1)))) := by
  by_cases hz : s.reg rs1 = ZERO
  · have hk : d.get rs1 ≠ .nonzero := fun hk => Known.ne_zero (h rs1) hk hz
    rw [knownAfter, if_neg hk, invEffect, if_pos hz]
    exact h.congr fun r => ⟨rfl, rfl⟩
  · rw [invEffect, if_neg hz, commit_element, knownAfter]
    split
    · exact h.set_writeReg _ rd fun _ => fieldInv_ne_zero hz
    · exact h.writeReg_of_ne_zero rd (fieldInv_ne_zero hz)

/-- What the check takes to be known after a command is so: the command's value is ZERO only where the check allows it. -/
theorem knownHolds_after_exec {d : Vector Known 8} (h : KnownHolds d s) (i : Instr) (din : Elem)
    (hdin : samplesDin i = true → din = s.din) : KnownHolds (knownAfter i din d)
      (s.commit (effectOf i (latchedOperands i s).1 (latchedOperands i s).2)) := by
  have hnz := fun r => Known.ne_zero (h r)
  cases i with
  | nop | clr | st | trc => exact h.congr fun r => commit_reg_of_ne fun v hv => by cases effectOf_element hv
  | ld rd =>
    refine h.set_writeReg _ rd fun hk hz => ?_
    rw [if_pos ((hdin rfl).trans hz)] at hk
    cases hk
  | add rd rs1 rs2 => exact h.set_writeReg _ rd fun hk => absurd hk (by decide)
  | sqr rd rs1 => exact h.set_writeReg _ rd fun hk => fieldSqr_ne_zero (hnz rs1 hk)
  | rot rd rs1 k => exact h.set_writeReg _ rd fun hk => fieldRot_ne_zero _ (hnz rs1 hk)
  | mul rd rs1 rs2 =>
    refine h.set_writeReg _ rd fun hk => ?_
    split at hk
    · rename_i hboth
      exact fieldMul_ne_zero (hnz rs1 hboth.1) (hnz rs2 hboth.2)
    · cases hk
  | pow rd rs1 rs2 len => exact h.set_writeReg _ rd fun hk => fieldPow_ne_zero _ _ (hnz rs1 hk)
  | inv rd rs1 => exact knownHolds_after_inv h rd rs1 din

/-! ### Steps (R48, R92) -/

/-- The check's case for a legal command: every source is known to be written, and the rest passes with what is known then. -/
theorem bootChecked_of_ok {d : Vector Known 8} {w : Word} {din : Elem} {rest : List HostAction} (hd : decode w = .ok i)
    (hc : bootChecked d (.command w din :: rest) = true) :
    (∀ r ∈ sources i, d.get r ≠ .nothing) ∧ bootChecked (knownAfter i din d) rest = true := by
  simpa [bootChecked, hd] using hc

theorem bootChecked_of_error {d : Vector Known 8} {w : Word} {din : Elem} {rest : List HostAction} {x : Illegal}
    (hd : decode w = .error x) (hc : bootChecked d (.command w din :: rest) = true) : bootChecked d rest = true := by
  simpa [bootChecked, hd] using hc

/-- After a reset nothing is known, and that is so. -/
theorem knownHolds_nothing (s : State) : KnownHolds (Vector.replicate 8 .nothing) s := fun r => by
  simp [Vector.get_eq_getElem, Known.Holds]

/-- A legal command whose sources are known to be written completes, and the check's knowledge after it is so. -/
theorem exec_of_knownHolds {d : Vector Known 8} {din : Elem} (hw : i.wellFormed = true) (h : KnownHolds d s)
    (hk : ∀ r ∈ sources i, d.get r ≠ .nothing) (hdin : samplesDin i = true → din = s.din) :
    ∃ t, exec i s = .next t ∧ t.inFlight = s.inFlight ∧ t.host = s.host ∧ KnownHolds (knownAfter i din d) t :=
  ⟨_, exec_of_defined hw fun r hr => Known.isDefined (h r) (hk r hr), commit_inFlight s _, commit_host s _,
    knownHolds_after_exec h i din hdin⟩

/-- Settles O47: by what the host does next; a command's case is `exec_of_knownHolds`. -/
theorem everyStepKeepsBootReady : Obligations.EveryStepKeepsBootReady := by
  rintro s ⟨hf, d, h, hc⟩
  match hh : s.host with
  | [] => exact ⟨s, step_idle hf hh, hf, d, h, hc⟩
  | .reset :: rest =>
    rw [hh] at hc
    exact ⟨_, step_reset hh, rfl, _, knownHolds_nothing _, hc⟩
  | .command w din :: rest =>
    rw [hh] at hc
    cases hd : decode w with
    | error x =>
      exact ⟨_, step_illegal hf hh hd, hf, d, KnownHolds.congr h fun r => ⟨rfl, rfl⟩, bootChecked_of_error hd hc⟩
    | ok i =>
      obtain ⟨hk, hrest⟩ := bootChecked_of_ok hd hc
      have h' : KnownHolds d ((s.acceptHead rest).sampleDin i din) := KnownHolds.congr h fun r => by simp
      obtain ⟨t, ht, htf, hth, hknown⟩ := exec_of_knownHolds (wellFormed_of_decode hd) h' hk
        (din := din) fun hld => by simp [State.sampleDin, hld]
      refine ⟨t, by rw [step_instruction hf hh hd, ht], by simpa [htf] using hf, _, hknown, ?_⟩
      simpa [hth] using hrest

/-- A step that answers a next state is the first of a run (R48). -/
theorem run_succ_of_step (M : Host.Core) {s t : M.State} (h : M.step s = .next t) (n : Nat) :
    M.run (n + 1) s = M.run n t := by
  rw [Host.Core.run, h]

/-- Settles O46: each step of the run answers a state that the next step answers from. -/
theorem bootCheckedProgramsNeverStop : Obligations.BootCheckedProgramsNeverStop := by
  have hrun : ∀ (n : Nat) (s : State), s.BootReady → ∃ t, Host.Core.run core n s = .next t := by
    intro n
    induction n with
    | zero => exact fun s _ => ⟨s, rfl⟩
    | succ n ih =>
      intro s hs
      obtain ⟨t, ht, hready⟩ := everyStepKeepsBootReady s hs
      obtain ⟨u, hu⟩ := ih t hready
      exact ⟨u, (run_succ_of_step core ht n).trans hu⟩
  exact fun s d hf h hc n => hrun n s ⟨hf, d, h, hc⟩

end Sys2Proof.Machine
end

section
/-! PROOFS, the matrix (R61 to R66): the wired table is read once, two columns a row, and the powers of 2 modulo 467 say that no
other column is marked. -/
namespace Sys2Proof.Machine

/-! ### The powers of 2 modulo 467 (R66) -/

/-- 2 is a primitive root: neither of the exponents 466/2 and 466/233 gives 1. -/
theorem orderOf_two : orderOf (2 : ZMod 467) = 466 := by
  refine orderOf_eq_of_pow_and_pow_div_prime (by decide) (by decide +kernel) fun p hp hdvd => ?_
  rw [show 466 = 2 * 233 from rfl, hp.dvd_mul, Nat.prime_dvd_prime_iff_eq hp Nat.prime_two,
    Nat.prime_dvd_prime_iff_eq hp (by norm_num)] at hdvd
  obtain rfl | rfl := hdvd
  · decide +kernel
  · decide +kernel

theorem two_pow_233 : (2 : ZMod 467) ^ 233 = -1 := by decide +kernel

/-- Equality up to sign, in the integers modulo 467. -/
theorem samePm_iff {m n : Nat} : samePm m n = true ↔ (m : ZMod 467) = n ∨ (m : ZMod 467) = -n := by
  rw [samePm, decide_eq_true_eq, ZMod.natCast_eq_natCast_iff', eq_neg_iff_add_eq_zero, ← Nat.cast_add,
    ZMod.natCast_eq_zero_iff, Nat.dvd_iff_mod_eq_zero]

/-- A power of 2 up to sign is a power of 2, the sign being half of the order. -/
theorem exists_two_pow_of_samePm {m n : Nat} (h : samePm m (2 ^ n) = true) :
    ∃ a, (a = n ∨ a = n + 233) ∧ (m : ZMod 467) = 2 ^ a := by
  obtain h | h := samePm_iff.1 h
  · exact ⟨n, .inl rfl, by simpa using h⟩
  · exact ⟨n + 233, .inr rfl, by simpa [pow_add, two_pow_233] using h⟩

/-- Up to sign, the powers of 2 below the 233rd are different. -/
theorem eq_of_samePm {m j k : Nat} (hj : j < 233) (hk : k < 233) (hmj : samePm m (2 ^ j) = true)
    (hmk : samePm m (2 ^ k) = true) : j = k := by
  have hroot : IsPrimitiveRoot (2 : ZMod 467) 466 := orderOf_two ▸ IsPrimitiveRoot.orderOf _
  obtain ⟨a, ha, hma⟩ := exists_two_pow_of_samePm hmj
  obtain ⟨b, hb, hmb⟩ := exists_two_pow_of_samePm hmk
  have hab : a = b := hroot.pow_inj (by omega) (by omega) (hma.symm.trans hmb)
  omega

/-! ### The rule (R62, R63) -/

/-- R62, as the rule puts it. -/
theorem entry_iff_combination (i j : Nat) :
    entry i j = true ↔ ∃ s ∈ combinations (2 ^ i % 467) (2 ^ j % 467), s % 467 = 1 := by
  simp [entry, modpow2]

/-- An integer is 1 modulo 467 exactly when it is 1 among the integers modulo 467. -/
theorem emod_eq_one_iff (s : Int) : s % 467 = 1 ↔ (s : ZMod 467) = 1 := by
  simpa [Int.ModEq] using (ZMod.intCast_eq_intCast_iff s 1 467).symm

/-- Some signed combination is 1 exactly when `v` is `u + 1` or `u - 1` up to sign. -/
theorem combination_eq_one_iff {R : Type} [CommRing R] (u v : R) :
    (u + v = 1 ∨ u - v = 1 ∨ -u + v = 1 ∨ -u - v = 1) ↔
      (u + 1 = v ∨ u + 1 = -v) ∨ (u - 1 = v ∨ u - 1 = -v) := by
  have h1 : u + v = 1 ↔ u - 1 = -v := by constructor <;> intro h <;> linear_combination h
  have h2 : u - v = 1 ↔ u - 1 = v := by constructor <;> intro h <;> linear_combination h
  have h3 : -u + v = 1 ↔ u + 1 = v := by constructor <;> intro h <;> linear_combination -h
  have h4 : -u - v = 1 ↔ u + 1 = -v := by constructor <;> intro h <;> linear_combination -h
  rw [h1, h2, h3, h4]
  simp only [or_comm, or_left_comm, or_assoc]

/-- R62: column `j` of row `i` is marked exactly when `2^j` is `2^i + 1` or `2^i - 1` up to sign. -/
theorem entry_iff (i j : Nat) : entry i j = true ↔ samePm (2 ^ i + 1) (2 ^ j) = true ∨ samePm (2 ^ i - 1) (2 ^ j) = true := by
  have hcast : ∀ n : Nat, ((2 ^ n % 467 : Nat) : ZMod 467) = 2 ^ n := fun n => by simp
  rw [entry_iff_combination, samePm_iff, samePm_iff]
  simp only [combinations, List.mem_cons, List.not_mem_nil, or_false, exists_eq_or_imp, exists_eq_left, emod_eq_one_iff,
    Int.cast_add, Int.cast_sub, Int.cast_neg, Int.cast_natCast, hcast, Nat.cast_add, Nat.cast_pow, Nat.cast_ofNat,
    Nat.cast_one, Nat.cast_sub Nat.one_le_two_pow]
  exact combination_eq_one_iff _ _

theorem mem_allMarked {i j : Nat} : j ∈ allMarked i ↔ j < 233 ∧ entry i j = true := by
  simp [allMarked]

/-- Columns `j` and `k` are those that R62 marks in row `i`. -/
def rowMarks (i j k : Nat) : Bool :=
  decide (j < k) && decide (k < 233) &&
    (samePm (2 ^ i + 1) (2 ^ j) && samePm (2 ^ i - 1) (2 ^ k) || samePm (2 ^ i + 1) (2 ^ k) && samePm (2 ^ i - 1) (2 ^ j))

/-- Such columns are all that the rule marks, since each of the two residues is one power of 2 up to sign. -/
theorem allMarked_of_rowMarks {i j k : Nat} (h : rowMarks i j k = true) : allMarked i = [j, k] := by
  simp only [rowMarks, Bool.and_eq_true, Bool.or_eq_true, decide_eq_true_eq] at h
  obtain ⟨⟨hjk, hk⟩, h⟩ := h
  have hsorted : (allMarked i).Pairwise (· < ·) := List.pairwise_lt_range.filter _
  refine hsorted.eq_of_mem_iff (by simp [hjk]) fun m => ?_
  have hj : j < 233 := hjk.trans hk
  rw [mem_allMarked, entry_iff, List.mem_pair]
  constructor
  · rintro ⟨hm, hplus | hminus⟩
    · exact h.imp (fun h => eq_of_samePm hm hj hplus h.1) fun h => eq_of_samePm hm hk hplus h.1
    · exact h.symm.imp (fun h => eq_of_samePm hm hj hminus h.2) fun h => eq_of_samePm hm hk hminus h.2
  · rintro (rfl | rfl)
    · exact ⟨hj, h.imp And.left And.right⟩
    · exact ⟨hk, h.symm.imp And.left And.right⟩

/-! ### The table, row by row (R63, R65) -/

/-- The pairs that the rule yields for one row. -/
def rulePairs (i : Nat) : List (Nat × Nat) := (markedColumns i).map fun j => (i, j)

/-- The list is the marked columns of row `i`, then those of row `i + 1`, and so on, two a row. -/
def rowsFrom : Nat → List (Nat × Nat) → Bool
  | _, [] => true
  | _, [_] => false
  | i, p :: q :: l => decide (p.1 = i) && decide (q.1 = i) && rowMarks i p.2 q.2 && rowsFrom (i + 1) l

theorem matrix_rows : rowsFrom 1 matrix.tail = true := by decide +kernel

/-- Such a list is what the rule yields for its rows, of which each has two marked columns. -/
theorem eq_rulePairs_of_rowsFrom : ∀ (i : Nat) (l : List (Nat × Nat)), rowsFrom i l = true →
    ∃ n, l.length = 2 * n ∧ l = (List.range' i n).flatMap rulePairs ∧ ∀ m ∈ List.range' i n, (allMarked m).length = 2
  | _, [], _ => ⟨0, rfl, rfl, by simp⟩
  | _, [_], h => Bool.noConfusion h
  | i, (i1, j) :: (i2, k) :: l, h => by
    simp only [rowsFrom, Bool.and_eq_true, decide_eq_true_eq] at h
    obtain ⟨⟨⟨rfl, rfl⟩, hmarks⟩, hl⟩ := h
    obtain ⟨n, hn, hflat, hlen⟩ := eq_rulePairs_of_rowsFrom _ l hl
    have hall := allMarked_of_rowMarks hmarks
    refine ⟨n + 1, by rw [List.length_cons, List.length_cons, hn, Nat.mul_succ], ?_, ?_⟩
    · rw [List.range'_succ, List.flatMap_cons, ← hflat, rulePairs, markedColumns, hall]
      rfl
    · rw [List.range'_succ, List.forall_mem_cons]
      exact ⟨by rw [hall]; rfl, hlen⟩

/-- R63: row 0 has one marked column. -/
theorem allMarked_zero : allMarked 0 = [1] := by decide +kernel

theorem matrix_tail_eq : matrix.tail = (List.range' 1 232).flatMap rulePairs ∧
    ∀ m ∈ List.range' 1 232, (allMarked m).length = 2 := by
  obtain ⟨n, hn, h⟩ := eq_rulePairs_of_rowsFrom 1 matrix.tail matrix_rows
  have hlen : matrix.tail.length = 464 := by decide +kernel
  obtain rfl : n = 232 := by omega
  exact h

/-- R66: every row but the first has two marked columns. -/
theorem length_allMarked {i : Nat} (h0 : 0 < i) (hi : i < 233) : (allMarked i).length = 2 :=
  matrix_tail_eq.2 i (List.mem_range'_1.2 (by omega))

theorem length_allMarked_le {i : Nat} (hi : i < 233) : (allMarked i).length ≤ 2 := by
  obtain rfl | h0 := Nat.eq_zero_or_pos i
  · rw [allMarked_zero]
    decide
  · exact (length_allMarked h0 hi).le

/-- The scan's early stop leaves no marked column out (R63). -/
theorem markedColumns_eq_allMarked {i : Nat} (hi : i < 233) : markedColumns i = allMarked i :=
  List.take_of_length_le (length_allMarked_le hi)

/-- R65: the table is the constructed matrix. -/
theorem matrix_eq_matrixByRule : matrix = matrixByRule := by
  have hhead : matrix = rulePairs 0 ++ matrix.tail := by
    rw [rulePairs, markedColumns, allMarked_zero]
    rfl
  rw [hhead, matrix_tail_eq.1, matrixByRule, List.range_eq_range', List.range'_succ, List.flatMap_cons]
  rfl

theorem mem_matrix_iff {i j : Nat} : (i, j) ∈ matrix ↔ i < 233 ∧ j < 233 ∧ entry i j = true := by
  rw [matrix_eq_matrixByRule, matrixByRule, List.mem_flatMap]
  constructor
  · rintro ⟨m, hm, hmem⟩
    obtain ⟨k, hk, heq⟩ := List.mem_map.1 hmem
    cases heq
    have hi := List.mem_range.1 hm
    rw [markedColumns_eq_allMarked hi] at hk
    exact ⟨hi, mem_allMarked.1 hk⟩
  · rintro ⟨hi, hj⟩
    refine ⟨i, List.mem_range.2 hi, List.mem_map.2 ⟨j, ?_, rfl⟩⟩
    rw [markedColumns_eq_allMarked hi]
    exact mem_allMarked.2 hj

/-- With each combination its opposite is one (R62). -/
theorem neg_mem_combinations {u v : Nat} {s : Int} (h : s ∈ combinations u v) : -s ∈ combinations u v := by
  simp only [combinations, List.mem_cons, List.not_mem_nil, or_false] at h ⊢
  omega

/-- Conflict C4: to count 466 or an unreduced −466 as a match too changes no entry. -/
theorem entry_iff_combination_or_opposite (i j : Nat) : entry i j = true ↔
    ∃ s ∈ combinations (2 ^ i % 467) (2 ^ j % 467), s % 467 = 1 ∨ s % 467 = 466 ∨ s = -466 := by
  rw [entry_iff_combination]
  constructor
  · exact fun ⟨s, hs, h⟩ => ⟨s, hs, .inl h⟩
  · rintro ⟨s, hs, h | h | rfl⟩
    · exact ⟨s, hs, h⟩
    · exact ⟨-s, neg_mem_combinations hs, by omega⟩
    · exact ⟨-466, hs, by decide⟩

/-- Settles O25: `matrix_eq_matrixByRule`, the rule's criterion by `mem_matrix_iff`, and a combination is 466 modulo 467 exactly
when the opposite one is 1. -/
theorem matrixTableIsTheConstructedMatrix : Obligations.MatrixTableIsTheConstructedMatrix := by
  refine ⟨matrix_eq_matrixByRule, ?_, fun i j hi hj => ?_⟩
  · simp only [designCheck, List.all_eq_true, List.mem_range, Bool.or_eq_true, beq_iff_eq]
    intro i hi
    obtain rfl | h0 := Nat.eq_zero_or_pos i
    · exact .inl (by rw [allMarked_zero]; rfl)
    · exact .inr (length_allMarked h0 hi)
  · have hmem : (i, j) ∈ matrix ↔ entry i j = true := by simp [mem_matrix_iff, hi, hj]
    exact ⟨hmem.trans (entry_iff_combination i j), hmem.trans (entry_iff_combination_or_opposite i j)⟩

/-! ### Properties (R66) -/

theorem fst_of_mem_rulePairs {i : Nat} {ij : Nat × Nat} (h : ij ∈ rulePairs i) : ij.1 = i := by
  obtain ⟨j, -, rfl⟩ := List.mem_map.1 h
  rfl

/-- The pairs of one row, picked out of the rule's list. -/
theorem filter_row (i n : Nat) : ((List.range n).flatMap rulePairs).filter (fun ij => ij.1 == i) =
    if i < n then rulePairs i else [] := by
  have hother : ∀ m, m ≠ i → (rulePairs m).filter (fun ij => ij.1 == i) = [] := fun m hm =>
    List.filter_eq_nil_iff.2 fun ij hij => by simpa [fst_of_mem_rulePairs hij] using hm
  have hself : (rulePairs i).filter (fun ij => ij.1 == i) = rulePairs i :=
    List.filter_eq_self.2 fun ij hij => by simpa using fst_of_mem_rulePairs hij
  induction n with
  | zero => rfl
  | succ n ih =>
    rw [List.range_succ, List.flatMap_append, List.filter_append, ih, List.flatMap_singleton]
    rcases Nat.lt_trichotomy i n with h | rfl | h
    · simp [h, hother n h.ne', Nat.lt_succ_of_lt h]
    · simp [hself]
    · simp [Nat.not_lt.2 h.le, hother n h.ne, Nat.not_lt.2 (Nat.succ_le_of_lt h)]

theorem matrix_filter_row {i : Nat} (hi : i < 233) : (matrix.filter fun ij => ij.1 == i) = rulePairs i := by
  rw [matrix_eq_matrixByRule]
  exact (filter_row i 233).trans (if_pos hi)

/-- No pair is listed twice: no column within a row, and no row. -/
theorem matrix_nodup : matrix.Nodup := by
  rw [matrix_eq_matrixByRule, matrixByRule, List.nodup_flatMap]
  constructor
  · intro i _
    have hcols : (markedColumns i).Nodup := (List.nodup_range.filter _).sublist (List.take_sublist _ _)
    exact hcols.map fun j k h => congrArg Prod.snd h
  · refine List.nodup_range.imp fun {i k} hik ij hi hk => hik ?_
    rw [← fst_of_mem_rulePairs hi, fst_of_mem_rulePairs hk]

theorem swap_mem_matrix {i j : Nat} (h : (i, j) ∈ matrix) : (j, i) ∈ matrix :=
  matrix_swap_perm.subset (List.mem_map_of_mem (f := Prod.swap) h)

/-- The table has one diagonal pair. -/
theorem matrix_diagonal : ∀ ij ∈ matrix, ij.1 = ij.2 → ij.1 = 232 := by decide +kernel

/-- Settles O26: the rows as the rule yields them, `matrix_swap_perm`, and the order of 2. -/
theorem matrixProperties : Obligations.MatrixProperties := by
  refine ⟨by decide +kernel, matrix_nodup, ?_, fun i h0 hi => ?_, fun i j => ⟨swap_mem_matrix, swap_mem_matrix⟩,
    fun i => ⟨fun h => matrix_diagonal _ h rfl, ?_⟩, orderOf_two, by decide⟩
  · rw [matrix_filter_row (by decide), rulePairs, markedColumns, allMarked_zero]
    rfl
  · rw [matrix_filter_row hi, rulePairs, List.length_map, markedColumns_eq_allMarked hi, length_allMarked h0 hi]
  · rintro rfl
    decide +kernel

end Sys2Proof.Machine
end

section
/-! PROOFS, the assembler (R46): the text of a command taken apart into its mnemonic and its operands, and immediates in
decimal. -/
namespace Sys2Proof.Machine

/-! ### Texts -/

/-- A text that is one operand or one mnemonic: it is not empty and holds no white space, comma or semicolon. -/
def IsToken (w : List Char) : Prop := w ≠ [] ∧ ∀ c ∈ w, isBlank c = false ∧ c ≠ ',' ∧ c ≠ ';'

/-- Texts with commas between them. -/
def joinCommas : List (List Char) → List Char
  | [] => []
  | [w] => w
  | w :: v :: ws => w ++ ',' :: joinCommas (v :: ws)

theorem mem_joinCommas {c : Char} {ws : List (List Char)} (h : c ∈ joinCommas ws) : c = ',' ∨ ∃ w ∈ ws, c ∈ w := by
  induction ws using joinCommas.induct with
  | case1 => cases h
  | case2 w => exact .inr ⟨w, List.mem_singleton_self w, h⟩
  | case3 w v ws ih =>
    rw [joinCommas, List.mem_append, List.mem_cons] at h
    obtain h | h | h := h
    · exact .inr ⟨w, List.mem_cons_self, h⟩
    · exact .inl h
    · exact (ih h).imp_right fun ⟨u, hu, hc⟩ => ⟨u, List.mem_cons_of_mem _ hu, hc⟩

/-- Characters before the first comma go to the first text. -/
theorem splitCommas_append {w : List Char} (hw : ∀ c ∈ w, c ≠ ',') {l v : List Char} {vs : List (List Char)}
    (hl : splitCommas l = v :: vs) : splitCommas (w ++ l) = (w ++ v) :: vs := by
  induction w with
  | nil => exact hl
  | cons c w ih =>
    rw [List.forall_mem_cons] at hw
    rw [List.cons_append, splitCommas, ih hw.2]
    simp [hw.1]

/-- Splitting at commas undoes joining by them. -/
theorem splitCommas_joinCommas {w : List Char} {ws : List (List Char)} (h : ∀ v ∈ w :: ws, ∀ c ∈ v, c ≠ ',') :
    splitCommas (joinCommas (w :: ws)) = w :: ws := by
  induction ws generalizing w with
  | nil => simpa [joinCommas] using splitCommas_append (l := []) (h w List.mem_cons_self) rfl
  | cons v ws ih =>
    rw [List.forall_mem_cons] at h
    have hrest : splitCommas (',' :: joinCommas (v :: ws)) = [] :: v :: ws := by rw [splitCommas, ih h.2]; simp
    simpa [joinCommas] using splitCommas_append h.1 hrest

/-- The text's last character is not white space. -/
def EndsInInk (l : List Char) : Prop := ∃ l' d, l = l' ++ [d] ∧ isBlank d = false

theorem EndsInInk.append_left {l : List Char} (h : EndsInInk l) (l₁ : List Char) : EndsInInk (l₁ ++ l) := by
  obtain ⟨l', d, rfl, hd⟩ := h
  exact ⟨l₁ ++ l', d, (List.append_assoc ..).symm, hd⟩

/-- A text without white space at either end is left as it is. -/
theorem trim_eq_self {c : Char} {l : List Char} (hc : isBlank c = false) (hlast : EndsInInk (c :: l)) :
    trim (c :: l) = c :: l := by
  obtain ⟨l', d, hd, hdb⟩ := hlast
  rw [trim, List.dropWhile_cons_of_neg (by simp [hc]), hd, List.reverse_concat, List.dropWhile_cons_of_neg (by simp [hdb]),
    ← List.reverse_concat, List.reverse_reverse]

/-- Only white space is trimmed away. -/
theorem isBlank_of_trim_eq_nil {l : List Char} (h : trim l = []) : ∀ c ∈ l, isBlank c = true := by
  rw [trim, List.reverse_eq_nil_iff, List.dropWhile_eq_nil_iff] at h
  intro c hc
  rw [← List.takeWhile_append_dropWhile (p := isBlank) (l := l), List.mem_append] at hc
  exact hc.elim List.mem_takeWhile_imp fun hc => h c (List.mem_reverse.2 hc)

theorem IsToken.exists_first {w : List Char} (h : IsToken w) : ∃ c w', w = c :: w' ∧ isBlank c = false := by
  obtain ⟨c, w', rfl⟩ := List.exists_cons_of_ne_nil h.1
  exact ⟨c, w', rfl, (h.2 c List.mem_cons_self).1⟩

theorem IsToken.endsInInk {w : List Char} (h : IsToken w) : EndsInInk w :=
  ⟨w.dropLast, w.getLast h.1, (List.dropLast_append_getLast h.1).symm, (h.2 _ (List.getLast_mem h.1)).1⟩

/-- A blank before an operand is white space around it. -/
theorem trim_blank_token {w : List Char} (h : IsToken w) : trim (' ' :: w) = w := by
  obtain ⟨c, w', rfl, hc⟩ := h.exists_first
  exact trim_eq_self hc h.endsInInk

/-! ### A command's line -/

/-- Operands as R46 writes them after a mnemonic: a blank before each, commas between them. -/
def operandText (args : List (List Char)) : List Char := joinCommas (args.map fun a => ' ' :: a)

theorem operandText_cons_cons (a b : List Char) (args : List (List Char)) :
    operandText (a :: b :: args) = ' ' :: a ++ ',' :: operandText (b :: args) := rfl

/-- The mnemonic ends where the operands begin. -/
theorem operandText_eq_nil_or_blank (args : List (List Char)) : operandText args = [] ∨ ∃ l, operandText args = ' ' :: l :=
  match args with
  | [] => .inl rfl
  | [_] => .inr ⟨_, rfl⟩
  | _ :: _ :: _ => .inr ⟨_, rfl⟩

theorem ne_semicolon_of_mem_operandText {args : List (List Char)} (hargs : ∀ a ∈ args, IsToken a) {c : Char}
    (hc : c ∈ operandText args) : c ≠ ';' := by
  obtain rfl | ⟨w, hw, hcw⟩ := mem_joinCommas hc
  · decide
  · obtain ⟨a, ha, rfl⟩ := List.mem_map.1 hw
    obtain rfl | hca := List.mem_cons.1 hcw
    · decide
    · exact ((hargs a ha).2 c hca).2.2

theorem endsInInk_operandText {a : List Char} {args : List (List Char)} (hargs : ∀ b ∈ a :: args, IsToken b) :
    EndsInInk (operandText (a :: args)) := by
  induction args generalizing a with
  | nil => exact (hargs a List.mem_cons_self).endsInInk.append_left [' ']
  | cons b args ih =>
    rw [List.forall_mem_cons] at hargs
    rw [operandText_cons_cons]
    exact ((ih hargs.2).append_left [',']).append_left (' ' :: a)

/-- The operands are read back. -/
theorem operands_operandText {args : List (List Char)} (hargs : ∀ a ∈ args, IsToken a) :
    operands (operandText args) = args := by
  cases args with
  | nil => rfl
  | cons a args =>
    have hne : trim (operandText (a :: args)) ≠ [] := fun h => by
      obtain ⟨l, d, hd, hdb⟩ := endsInInk_operandText hargs
      have := isBlank_of_trim_eq_nil h d (by simp [hd])
      simp [hdb] at this
    have hcomma : ∀ v ∈ (a :: args).map fun b => ' ' :: b, ∀ c ∈ v, c ≠ ',' := by
      simp only [List.forall_mem_map, List.forall_mem_cons (a := ' ')]
      exact fun b hb => ⟨by decide, fun c hc => ((hargs b hb).2 c hc).2.1⟩
    have htrim : ∀ b ∈ a :: args, (trim ∘ fun b => ' ' :: b) b = id b := fun b hb => trim_blank_token (hargs b hb)
    rw [operands, if_neg hne, operandText, List.map_cons, splitCommas_joinCommas hcomma, ← List.map_cons, List.map_map,
      List.map_congr_left htrim, List.map_id]

/-- The line is a mnemonic and its operands. -/
theorem assembleText_command {m : List Char} {args : List (List Char)} {op : AsmOp} {x : AsmLine} (hm : IsToken m)
    (hargs : ∀ a ∈ args, IsToken a) (hop : asmOp m = some op) (hline : asmLine op args = some x) :
    assembleText (m ++ operandText args) = .line x := by
  have hsemi : (m ++ operandText args).takeWhile (· ≠ ';') = m ++ operandText args := by
    rw [List.takeWhile_eq_self_iff]
    intro c hc
    obtain hc | hc := List.mem_append.1 hc
    · simpa using (hm.2 c hc).2.2
    · simpa using ne_semicolon_of_mem_operandText hargs hc
  have hink : EndsInInk (m ++ operandText args) := by
    cases args with
    | nil => simpa [operandText, joinCommas] using hm.endsInInk
    | cons a args => exact (endsInInk_operandText hargs).append_left m
  have htrim : trim (m ++ operandText args) = m ++ operandText args := by
    obtain ⟨c, m', rfl, hc⟩ := hm.exists_first
    exact trim_eq_self hc hink
  have hne : m ++ operandText args ≠ [] := List.append_ne_nil_of_left_ne_nil hm.1 _
  have hword : ∀ c ∈ m, (!isBlank c) = true := fun c hc => by simp [(hm.2 c hc).1]
  have hmnemonic : (m ++ operandText args).takeWhile (fun c => !isBlank c) = m := by
    rw [List.takeWhile_append_of_pos hword]
    obtain h | ⟨l, h⟩ := operandText_eq_nil_or_blank args <;> simp [h, isBlank]
  have hrest : (m ++ operandText args).dropWhile (fun c => !isBlank c) = operandText args := by
    rw [List.dropWhile_append_of_pos hword]
    obtain h | ⟨l, h⟩ := operandText_eq_nil_or_blank args <;> simp [h, isBlank]
  simp only [assembleText, hsemi, htrim, if_neg hne, hmnemonic, hrest, operands_operandText hargs, hop, hline,
    Option.bind_eq_bind, Option.bind_some]

/-! ### Registers and immediates -/

theorem parseReg_regText : ∀ r : Reg, parseReg (regText r) = some r := by decide

theorem isDigit_iff {c : Char} : c.isDigit = true ↔ '0' ≤ c ∧ c ≤ '9' := by
  simp [Char.isDigit, Char.le_def]

theorem digitValue_of_isDigit {c : Char} (h : c.isDigit = true) : digitValue 10 c = some (c.toNat - '0'.toNat) := by
  obtain ⟨h0, h9⟩ := isDigit_iff.1 h
  have hle : c.toNat ≤ '9'.toNat := h9
  have hlt : c.toNat - '0'.toNat < 10 := by simp at hle ⊢; omega
  simp only [digitValue, if_pos (And.intro h0 h9)]
  simpa using hlt

/-- Digits are read as `Nat.ofDigitChars` reads them. -/
theorem parseDigits_eq_ofDigitChars {l : List Char} (hne : l ≠ []) (h : ∀ c ∈ l, c.isDigit = true) :
    parseDigits 10 l = some (Nat.ofDigitChars 10 l 0) := by
  rw [parseDigits, if_neg hne]
  clear hne
  generalize 0 = n
  induction l generalizing n with
  | nil => rfl
  | cons c l ih =>
    rw [List.forall_mem_cons] at h
    rw [List.foldl_cons, Nat.ofDigitChars_cons, digitValue_of_isDigit h.1, ← ih h.2, Nat.mul_comm 10 n]
    rfl

/-- A digit is no white space, comma or semicolon. -/
theorem token_char_of_isDigit {c : Char} (h : c.isDigit = true) : isBlank c = false ∧ c ≠ ',' ∧ c ≠ ';' := by
  have hne : ∀ d : Char, d.isDigit = false → c ≠ d := by
    rintro d hd rfl
    exact absurd (hd.symm.trans h) Bool.false_ne_true
  exact ⟨by simp [isBlank, hne ' ' rfl, hne '\t' rfl], hne ',' rfl, hne ';' rfl⟩

theorem isToken_toDigits (n : Nat) : IsToken (Nat.toDigits 10 n) :=
  ⟨Nat.toDigits_ne_nil, fun _ hc => token_char_of_isDigit (Nat.isDigit_of_mem_toDigits (by decide) (by decide) hc)⟩

theorem isToken_regText (r : Reg) : IsToken (regText r) := by
  have hdigit : ∀ r : Reg, (Char.ofNat ('0'.toNat + r.val)).isDigit = true := by decide
  refine ⟨List.cons_ne_nil _ _, List.forall_mem_cons.2 ⟨by simp [isBlank], ?_⟩⟩
  exact List.forall_mem_singleton.2 (token_char_of_isDigit (hdigit r))

/-- R46: a number written in decimal is read back, if it is not too large. -/
theorem parseImm_toDigits {max n : Nat} (h : n ≤ max) : parseImm max (Nat.toDigits 10 n) = some n := by
  have hdigit : ∀ c ∈ Nat.toDigits 10 n, c.isDigit = true := fun c => Nat.isDigit_of_mem_toDigits (by decide) (by decide)
  unfold parseImm
  split
  · rename_i ds heq
    exact absurd (hdigit 'x' (by simp [heq])) (by decide)
  · rw [parseDigits_eq_ofDigitChars Nat.toDigits_ne_nil hdigit, Nat.ofDigitChars_toDigits (by decide) (by decide)]
    simp [h]

/-! ### The eleven lines -/

/-- The mnemonic of a command's line, in upper case (R46). -/
def mnemonicText : Instr → List Char
  | .nop => ['N', 'O', 'P']
  | .ld _ => ['L', 'D']
  | .st _ => ['S', 'T']
  | .clr => ['C', 'L', 'R']
  | .add _ _ _ => ['A', 'D', 'D']
  | .sqr _ _ => ['S', 'Q', 'R']
  | .rot _ _ _ => ['R', 'O', 'T']
  | .trc _ => ['T', 'R', 'C']
  | .mul _ _ _ => ['M', 'U', 'L']
  | .pow _ _ _ _ => ['P', 'O', 'W']
  | .inv _ _ => ['I', 'N', 'V']

/-- The operands of a command's line, destination, sources, immediate (R46). -/
def operandTexts : Instr → List (List Char)
  | .nop | .clr => []
  | .ld r | .st r | .trc r => [regText r]
  | .sqr rd rs1 | .inv rd rs1 => [regText rd, regText rs1]
  | .add rd rs1 rs2 | .mul rd rs1 rs2 => [regText rd, regText rs1, regText rs2]
  | .rot rd rs1 k => [regText rd, regText rs1, Nat.toDigits 10 k.toNat]
  | .pow rd rs1 rs2 len => [regText rd, regText rs1, regText rs2, Nat.toDigits 10 len.toNat]

/-- What the assembler makes of a command's mnemonic. -/
def asmOpOf : Instr → AsmOp
  | .nop => .nop
  | .ld _ => .ld
  | .st _ => .st
  | .clr => .clr
  | .add _ _ _ => .add
  | .sqr _ _ => .sqr
  | .rot _ _ _ => .rot
  | .trc _ => .trc
  | .mul _ _ _ => .mul
  | .pow _ _ _ _ => .pow
  | .inv _ _ => .inv

theorem instrText_eq (i : Instr) : instrText i = mnemonicText i ++ operandText (operandTexts i) := by
  cases i <;> rfl

theorem asmOp_mnemonicText (i : Instr) : asmOp (mnemonicText i) = some (asmOpOf i) := by
  cases i <;> rfl

theorem isToken_mnemonicText (i : Instr) : IsToken (mnemonicText i) := by
  cases i <;> simp [mnemonicText, IsToken, isBlank]

theorem isToken_operandTexts (i : Instr) : ∀ a ∈ operandTexts i, IsToken a := by
  cases i <;> simp [operandTexts, isToken_regText, isToken_toDigits]

/-- Each operand's parser reads it back, an exponent's length being at most 233 (R41). -/
theorem asmLine_operandTexts {i : Instr} (hw : i.wellFormed = true) :
    asmLine (asmOpOf i) (operandTexts i) = some (.instr i) := by
  cases i with
  | rot rd rs1 k =>
    have hk : k.toNat ≤ 255 := Nat.le_of_lt_succ k.isLt
    simp [asmOpOf, operandTexts, asmLine, parseReg_regText, parseImm_toDigits hk]
  | pow rd rs1 rs2 len =>
    have hlen : len.toNat ≤ 233 := of_decide_eq_true hw
    simp [asmOpOf, operandTexts, asmLine, parseReg_regText, parseImm_toDigits hlen]
  | _ => simp [asmOpOf, operandTexts, asmLine, parseReg_regText]

/-- Settles O58: each command's line is its mnemonic and its operands, each a token that its parser reads back. -/
theorem assemblerReadsEveryCommandLine : Obligations.AssemblerReadsEveryCommandLine := fun i hw =>
  instrText_eq i ▸ assembleText_command (isToken_mnemonicText i) (isToken_operandTexts i) (asmOp_mnemonicText i)
    (asmLine_operandTexts hw)

end Sys2Proof.Machine
end
